-- ==== Sys2Proof/Word.lean ====
section
/-! DEFINITION. The sizes of the Rust8 core's data: bytes, 16-bit words and addresses, register and key numbers
(spec/00_scope.md R3: `XLEN` = 8, `NREG` = 16, `ILEN` = `PCLEN` = `ILEN_I` = 16, `NKEYS` = 16). -/

namespace Sys2Proof

/-- An 8-bit value: a general register, a byte of memory, a timer (`XLEN`). -/
abbrev Byte := BitVec 8

/-- A 16-bit instruction word (`ILEN`). -/
abbrev Word := BitVec 16

/-- A 16-bit register that holds an address: `pc`, `I`, a stack entry (`PCLEN`, `ILEN_I`). -/
abbrev Addr := BitVec 16

/-- The number of a general register, 0..15 (R13: a 4-bit field, so every number it can name exists). -/
abbrev RegIdx := Fin 16

/-- The number of a key, 0..15 (R22). -/
abbrev KeyIdx := Fin 16

/-- One bit as the byte a flag register receives: 1 or 0 (R14). -/
def Byte.ofFlag (b : Bool) : Byte := if b then 1#8 else 0#8

end Sys2Proof
end

