-- ==== Sys2Proof/Config.lean ====
section
/-! DEFINITION. What an implementation fixes and what the environment leaves free (spec/00_scope.md R3): the types of
the parameters that have more than one legal value, the fixed sizes, and the uninterpreted constants. The VALUES chosen
for the parameters stand in Sys2Proof/Machine/Params.lean. -/

namespace Sys2Proof

/-- R3 `SHIFT_SRC`: the register that the two shift instructions shift. -/
inductive ShiftSrc where
  | X
  | Y
  deriving DecidableEq, Repr

/-- R3 `SUB_FLAG_SENSE`: what register 15 receives from the two subtract instructions. -/
inductive SubFlagSense where
  | borrow
  | notBorrow
  deriving DecidableEq, Repr

/-- R3 `I_OVERFLOW`: what happens when `I` would pass 0xFFFF. -/
inductive IndexOverflow where
  | wrap
  | fault
  deriving DecidableEq, Repr

/-- One value of the `key_in` port (60_exceptions.md R224): no key, one of sixteen keys, or the exit request. -/
inductive KeySample where
  | none
  | key (k : KeyIdx)
  | exit
  deriving DecidableEq, Repr, Inhabited

/-- The four agents that run after reset (10_state.md R10). The fifth, `HOST`, steps once before them: `State.boot`. -/
inductive Agent where
  | cpu
  | timer
  | sampler
  | refresh
  deriving DecidableEq, Repr, Inhabited

namespace Config

/-- R3 `ROWS`. -/
abbrev rows : Nat := 32

/-- R3 `COLS`. -/
abbrev cols : Nat := 64

/-- R3 `STACK_DEPTH`, the number of entries of the call stack (the spec's decision D2; log 8). -/
abbrev stackDepth : Nat := 16

/-- R3 `LOAD_BASE`: where the image is placed and where `pc` starts. -/
def loadBase : Nat := 0x200

/-- The agent that takes the n-th turn that nothing has fixed: R240 "any of the four agents may take the next step" (log 4). -/
opaque freeAgent : Nat → Agent

/-- The value of the n-th sample whose value nothing has fixed: R224 "any of the eighteen values at any sample, under
no law" (log 5). -/
opaque freeKey : Nat → KeySample

/-- The value of the n-th random byte whose value nothing has fixed: R124 "a draw under no law" (log 6). -/
opaque freeByte : Nat → Byte

/-- R3 `KEYMAP`, "OPEN, no default": the table from a raw key code to what the port delivers (log 20). -/
opaque keymap : Byte → KeySample

/-- What memory holds at an address after the load of `image` was refused: R264 "the contents of `MEM` are not
specified" (log 13). -/
opaque refusedLoadByte : List Byte → Nat → Byte

end Config

end Sys2Proof
end

