-- ==== Sys2Proof/Machine/Params.lean ====
section
/-! DEFINITION. The values this hardware gives the parameters of spec/00_scope.md R3. Each is one named definition, so
that a repair of a value is a change of one line; every rule of the model is written with the name. -/

namespace Sys2Proof.Machine.Params

/-- R3 `MEM_SIZE` (the spec's decision D1; log 7). -/
def memSize : Nat := 4096

/-- R3 `SUB_FLAG_SENSE`: 1 iff a borrow occurred (the spec's decision D9; log 10). -/
def subFlagSense : SubFlagSense := .borrow

/-- R3 `SHIFT_SRC`: the shifts act on `x[X]` (the spec's decision D8; log 11). -/
def shiftSrc : ShiftSrc := .X

/-- R3 `I_OVERFLOW`: `I` wraps past 0xFFFF (the spec's decision D17; log 11). -/
def indexOverflow : IndexOverflow := .wrap

/-- R3 `FONT_BASE`: the font lies in the lowest addresses. -/
def fontBase : Nat := 0x000

/-- R52, glyphs 0 to 7. Glyph 0 is from the source; the others are the spec's decision D5 (log 9). -/
def fontLow : List Byte :=
  [0xF0, 0x90, 0x90, 0x90, 0xF0] ++ [0x20, 0x60, 0x20, 0x20, 0x70] ++
  [0xF0, 0x10, 0xF0, 0x80, 0xF0] ++ [0xF0, 0x10, 0xF0, 0x10, 0xF0] ++
  [0x90, 0x90, 0xF0, 0x10, 0x10] ++ [0xF0, 0x80, 0xF0, 0x10, 0xF0] ++
  [0xF0, 0x80, 0xF0, 0x90, 0xF0] ++ [0xF0, 0x10, 0x20, 0x40, 0x40]

/-- R52, glyphs 8 to F (the spec's decision D5; log 9). -/
def fontHigh : List Byte :=
  [0xF0, 0x90, 0xF0, 0x90, 0xF0] ++ [0xF0, 0x90, 0xF0, 0x10, 0xF0] ++
  [0xF0, 0x90, 0xF0, 0x90, 0x90] ++ [0xE0, 0x90, 0xE0, 0x90, 0xE0] ++
  [0xF0, 0x80, 0x80, 0x80, 0xF0] ++ [0xE0, 0x90, 0x90, 0x90, 0xE0] ++
  [0xF0, 0x80, 0xF0, 0x80, 0xF0] ++ [0xF0, 0x80, 0xF0, 0x80, 0x80]

/-- R3 `FONT`: the 80 bytes of R52, glyph g at offset 5g, top row first. -/
def font : List Byte := fontLow ++ fontHigh

end Sys2Proof.Machine.Params
end

