-- ==== Sys2Proof/Machine/Flags.lean ====
section
/-! DEFINITION. Results and flags of the arithmetic (spec/43_alu.md R135 to R140): exact natural-number results first, narrowed
at the end. The sixth flag, the collision of `DRW`, is in Draw.lean with the raster. -/

namespace Sys2Proof.Machine

/-- `(a + b) mod 256` (R121, R135). -/
def addResult (a b : Byte) : Byte := BitVec.ofNat 8 (a.toNat + b.toNat)

/-- The carry: 1 iff `a + b > 255` (R135). -/
def addCarry (a b : Byte) : Bool := decide (255 < a.toNat + b.toNat)

/-- `(a − b) mod 256`: `a − b` when `a ≥ b`, else `a − b + 256` (R136, R138). -/
def subResult (a b : Byte) : Byte := BitVec.ofNat 8 (a.toNat + 256 - b.toNat)

/-- The borrow: 1 iff `a < b` (R136, R138). -/
def subBorrow (a b : Byte) : Bool := decide (a.toNat < b.toNat)

/-- The flag a subtraction writes, in the given sense (R136, R138). -/
def subFlag (sense : SubFlagSense) (a b : Byte) : Bool :=
  match sense with
  | .borrow => subBorrow a b
  | .notBorrow => !subBorrow a b

/-- `src >> 1` (R137). -/
def shrResult (src : Byte) : Byte := BitVec.ofNat 8 (src.toNat / 2)

/-- `src[0]`, the bit shifted out to the right (R137). -/
def shrFlag (src : Byte) : Bool := src.getLsbD 0

/-- `(src << 1) mod 256` (R139). -/
def shlResult (src : Byte) : Byte := BitVec.ofNat 8 (src.toNat * 2)

/-- `src[7]`, the bit shifted out to the left (R139). -/
def shlFlag (src : Byte) : Bool := src.getLsbD 7

end Sys2Proof.Machine
end

