-- ==== Sys2Proof/Syntax.lean ====
section
/-! DEFINITION. The 34 instructions of the Rust8 core, one constructor per row of spec/opcode_table.json
(30_encoding.md R80), in the table's order. A field's type is its range (R74): a register number is one of sixteen,
`kk` an 8-bit and `nnn` a 12-bit immediate, `n` a row count 0..15. The digits an instruction ignores are no field. -/

namespace Sys2Proof

/-- An instruction of the Rust8 core. -/
inductive Instr where
  /-- `CLS` (R100). -/
  | cls
  /-- `RET` (R101). -/
  | ret
  /-- `JP nnn` (R102). -/
  | jp (nnn : BitVec 12)
  /-- `CALL nnn` (R103). -/
  | call (nnn : BitVec 12)
  /-- `SE Vx, kk` (R110). -/
  | seVxKk (x : RegIdx) (kk : Byte)
  /-- `SNE Vx, kk` (R111). -/
  | sneVxKk (x : RegIdx) (kk : Byte)
  /-- `SE Vx, Vy` (R112). -/
  | seVxVy (x y : RegIdx)
  /-- `LD Vx, kk` (R120). -/
  | ldVxKk (x : RegIdx) (kk : Byte)
  /-- `ADD Vx, kk` (R121). -/
  | addVxKk (x : RegIdx) (kk : Byte)
  /-- `LD Vx, Vy` (R131). -/
  | ldVxVy (x y : RegIdx)
  /-- `OR Vx, Vy` (R132). -/
  | orVxVy (x y : RegIdx)
  /-- `AND Vx, Vy` (R133). -/
  | andVxVy (x y : RegIdx)
  /-- `XOR Vx, Vy` (R134). -/
  | xorVxVy (x y : RegIdx)
  /-- `ADD Vx, Vy` (R135). -/
  | addVxVy (x y : RegIdx)
  /-- `SUB Vx, Vy` (R136). -/
  | subVxVy (x y : RegIdx)
  /-- `SHR Vx` / `SHR Vx, Vy` (R137). -/
  | shrVxVy (x y : RegIdx)
  /-- `SUBN Vx, Vy` (R138). -/
  | subnVxVy (x y : RegIdx)
  /-- `SHL Vx` / `SHL Vx, Vy` (R139). -/
  | shlVxVy (x y : RegIdx)
  /-- `SNE Vx, Vy` (R113). -/
  | sneVxVy (x y : RegIdx)
  /-- `LD I, nnn` (R122). -/
  | ldINnn (nnn : BitVec 12)
  /-- `JP V0, nnn` (R104). -/
  | jpV0 (nnn : BitVec 12)
  /-- `RND Vx, kk` (R123). -/
  | rndVxKk (x : RegIdx) (kk : Byte)
  /-- `DRW Vx, Vy, n` (R150). -/
  | drw (x y : RegIdx) (n : Fin 16)
  /-- `SKP Vx` (R160). -/
  | skp (x : RegIdx)
  /-- `SKNP Vx` (R161). -/
  | sknp (x : RegIdx)
  /-- `LD Vx, DT` (R170). -/
  | ldVxDt (x : RegIdx)
  /-- `LD Vx, K` (R162). -/
  | ldVxK (x : RegIdx)
  /-- `LD DT, Vx` (R171). -/
  | ldDtVx (x : RegIdx)
  /-- `LD ST, Vx` (R172). -/
  | ldStVx (x : RegIdx)
  /-- `ADD I, Vx` (R173). -/
  | addIVx (x : RegIdx)
  /-- `LD F, Vx` (R174). -/
  | ldFVx (x : RegIdx)
  /-- `LD B, Vx` (R175). -/
  | ldBVx (x : RegIdx)
  /-- `LD [I], Vx` (R176). -/
  | ldMemVx (x : RegIdx)
  /-- `LD Vx, [I]` (R177). -/
  | ldVxMem (x : RegIdx)
  deriving DecidableEq, Repr

end Sys2Proof
end

