-- ==== Sys2Proof/Decode.lean ====
section
/-! DEFINITION. From words to instructions and back (spec/30_encoding.md R70 to R82). Decoding is total and rejects an
illegal word by the name of the family whose sub-op is not enumerated. The encoder stands after it, written from the
same formats (R73). The opcode map of R80 stands last, as rows of mask and match bits. -/

namespace Sys2Proof

/-! ## The fields of a word (R72) -/

namespace Field

/-- `w[15:12]`, the opcode family. -/
def fam (w : Word) : BitVec 4 := w.extractLsb' 12 4

/-- `w[11:0]`, the address immediate. -/
def nnn (w : Word) : BitVec 12 := w.extractLsb' 0 12

/-- `w[7:0]`, the immediate byte, and the sub-op of families 0, E and F. -/
def kk (w : Word) : Byte := w.extractLsb' 0 8

/-- A nibble as a register number or a count. -/
def ofNibble (b : BitVec 4) : Fin 16 := ⟨b.toNat, b.isLt⟩

/-- A register number or a count as a nibble. -/
def toNibble (r : Fin 16) : BitVec 4 := BitVec.ofNat 4 r.val

/-- `w[11:8]`, the first register (the order X above Y is the spec's decision D11; log 16). -/
def x (w : Word) : Fin 16 := ofNibble (w.extractLsb' 8 4)

/-- `w[7:4]`, the second register. -/
def y (w : Word) : Fin 16 := ofNibble (w.extractLsb' 4 4)

/-- `w[3:0]`, the sub-op of family 8 and the row count of family D. -/
def n (w : Word) : Fin 16 := ofNibble (w.extractLsb' 0 4)

end Field

/-! ## Decoding -/

/-- Why bytes are no instruction. -/
inductive DecodeError where
  /-- Fewer than the two bytes of an instruction (R70). -/
  | tooFewBytes
  /-- Family 0 with this low byte (R75). -/
  | family0 (low : Byte)
  /-- Family 8 with this low nibble (R76). -/
  | family8 (nibble : Fin 16)
  /-- Family E with this low byte (R77). -/
  | familyE (low : Byte)
  /-- Family F with this low byte (R78). -/
  | familyF (low : Byte)
  deriving DecidableEq, Repr

/-- Family 0: the low byte alone decides, `w[11:8]` is ignored (R75, the spec's decision D13; log 16). -/
def decodeFamily0 (w : Word) : Except DecodeError Instr :=
  if Field.kk w = 0xE0#8 then .ok .cls
  else if Field.kk w = 0xEE#8 then .ok .ret
  else .error (.family0 (Field.kk w))

/-- Family 8: the low nibble decides (R76, the spec's decision D7; log 16). -/
def decodeFamily8 (w : Word) : Except DecodeError Instr :=
  match (Field.n w).val with
  | 0x0 => .ok (.ldVxVy (Field.x w) (Field.y w))
  | 0x1 => .ok (.orVxVy (Field.x w) (Field.y w))
  | 0x2 => .ok (.andVxVy (Field.x w) (Field.y w))
  | 0x3 => .ok (.xorVxVy (Field.x w) (Field.y w))
  | 0x4 => .ok (.addVxVy (Field.x w) (Field.y w))
  | 0x5 => .ok (.subVxVy (Field.x w) (Field.y w))
  | 0x6 => .ok (.shrVxVy (Field.x w) (Field.y w))
  | 0x7 => .ok (.subnVxVy (Field.x w) (Field.y w))
  | 0xE => .ok (.shlVxVy (Field.x w) (Field.y w))
  | _ => .error (.family8 (Field.n w))

/-- Family E: the low byte decides (R77). -/
def decodeFamilyE (w : Word) : Except DecodeError Instr :=
  if Field.kk w = 0x9E#8 then .ok (.skp (Field.x w))
  else if Field.kk w = 0xA1#8 then .ok (.sknp (Field.x w))
  else .error (.familyE (Field.kk w))

/-- Family F: the low byte decides (R78). -/
def decodeFamilyF (w : Word) : Except DecodeError Instr :=
  match (Field.kk w).toNat with
  | 0x07 => .ok (.ldVxDt (Field.x w))
  | 0x0A => .ok (.ldVxK (Field.x w))
  | 0x15 => .ok (.ldDtVx (Field.x w))
  | 0x18 => .ok (.ldStVx (Field.x w))
  | 0x1E => .ok (.addIVx (Field.x w))
  | 0x29 => .ok (.ldFVx (Field.x w))
  | 0x33 => .ok (.ldBVx (Field.x w))
  | 0x55 => .ok (.ldMemVx (Field.x w))
  | 0x65 => .ok (.ldVxMem (Field.x w))
  | _ => .error (.familyF (Field.kk w))

/-- R71, R80: the family decides first. The last arm is family 0xF, the one value of four bits that is left. -/
def decode (w : Word) : Except DecodeError Instr :=
  match (Field.fam w).toNat with
  | 0x0 => decodeFamily0 w
  | 0x1 => .ok (.jp (Field.nnn w))
  | 0x2 => .ok (.call (Field.nnn w))
  | 0x3 => .ok (.seVxKk (Field.x w) (Field.kk w))
  | 0x4 => .ok (.sneVxKk (Field.x w) (Field.kk w))
  | 0x5 => .ok (.seVxVy (Field.x w) (Field.y w))
  | 0x6 => .ok (.ldVxKk (Field.x w) (Field.kk w))
  | 0x7 => .ok (.addVxKk (Field.x w) (Field.kk w))
  | 0x8 => decodeFamily8 w
  | 0x9 => .ok (.sneVxVy (Field.x w) (Field.y w))
  | 0xA => .ok (.ldINnn (Field.nnn w))
  | 0xB => .ok (.jpV0 (Field.nnn w))
  | 0xC => .ok (.rndVxKk (Field.x w) (Field.kk w))
  | 0xD => .ok (.drw (Field.x w) (Field.y w) (Field.n w))
  | 0xE => decodeFamilyE w
  | _ => decodeFamilyF w

/-- R44, R70: the word of two bytes in address order, the first the high byte. -/
def wordOfBytes (hi lo : Byte) : Word := hi ++ lo

/-- The byte of a word that lies at the lower address. -/
def highByte (w : Word) : Byte := w.extractLsb' 8 8

/-- The byte of a word that lies at the higher address. -/
def lowByte (w : Word) : Byte := w.extractLsb' 0 8

/-- Decoding of a byte string: the instruction at its front and the bytes after it (R70: every instruction is two
bytes). -/
def decodeBytes : List Byte → Except DecodeError (Instr × List Byte)
  | hi :: lo :: rest => (decode (wordOfBytes hi lo)).map fun i => (i, rest)
  | _ => .error .tooFewBytes

/-- The instruction that the decoder reads from the word whose low `nbits` bits are those of `w`, laid out as the
hardware stores it: high byte first (R44). -/
def decodeTableWord (nbits w : Nat) : Option Instr :=
  let v : Word := BitVec.ofNat 16 (w % 2 ^ nbits)
  match decodeBytes [highByte v, lowByte v] with
  | .ok (i, _) => some i
  | .error _ => none

/-! ## Encoding (R73) -/

/-- Format `A`: family and 12-bit address. -/
def formatA (f : BitVec 4) (nnn : BitVec 12) : Word := f ++ nnn

/-- Formats `XK`, `XS` and `S`: family, register, byte. -/
def formatXK (f : BitVec 4) (x : Fin 16) (kk : Byte) : Word := f ++ (Field.toNibble x ++ kk)

/-- Formats `XYN` and `XY`: family, two registers, nibble. -/
def formatXYN (f : BitVec 4) (x y n : Fin 16) : Word :=
  f ++ (Field.toNibble x ++ (Field.toNibble y ++ Field.toNibble n))

/-- The word of an instruction, every ignored digit 0 (R83: `SE Vx, Vy` and `SNE Vx, Vy` "assemble with low nibble 0;
`CLS` and `RET` assemble as 0x00E0 and 0x00EE"). -/
def encode : Instr → Word
  | .cls => formatXK 0x0 0 0xE0
  | .ret => formatXK 0x0 0 0xEE
  | .jp nnn => formatA 0x1 nnn
  | .call nnn => formatA 0x2 nnn
  | .seVxKk x kk => formatXK 0x3 x kk
  | .sneVxKk x kk => formatXK 0x4 x kk
  | .seVxVy x y => formatXYN 0x5 x y 0
  | .ldVxKk x kk => formatXK 0x6 x kk
  | .addVxKk x kk => formatXK 0x7 x kk
  | .ldVxVy x y => formatXYN 0x8 x y 0x0
  | .orVxVy x y => formatXYN 0x8 x y 0x1
  | .andVxVy x y => formatXYN 0x8 x y 0x2
  | .xorVxVy x y => formatXYN 0x8 x y 0x3
  | .addVxVy x y => formatXYN 0x8 x y 0x4
  | .subVxVy x y => formatXYN 0x8 x y 0x5
  | .shrVxVy x y => formatXYN 0x8 x y 0x6
  | .subnVxVy x y => formatXYN 0x8 x y 0x7
  | .shlVxVy x y => formatXYN 0x8 x y 0xE
  | .sneVxVy x y => formatXYN 0x9 x y 0
  | .ldINnn nnn => formatA 0xA nnn
  | .jpV0 nnn => formatA 0xB nnn
  | .rndVxKk x kk => formatXK 0xC x kk
  | .drw x y n => formatXYN 0xD x y n
  | .skp x => formatXK 0xE x 0x9E
  | .sknp x => formatXK 0xE x 0xA1
  | .ldVxDt x => formatXK 0xF x 0x07
  | .ldVxK x => formatXK 0xF x 0x0A
  | .ldDtVx x => formatXK 0xF x 0x15
  | .ldStVx x => formatXK 0xF x 0x18
  | .addIVx x => formatXK 0xF x 0x1E
  | .ldFVx x => formatXK 0xF x 0x29
  | .ldBVx x => formatXK 0xF x 0x33
  | .ldMemVx x => formatXK 0xF x 0x55
  | .ldVxMem x => formatXK 0xF x 0x65

/-- The bytes of an instruction in address order. -/
def encodeBytes (i : Instr) : List Byte := [highByte (encode i), lowByte (encode i)]

/-- The bits of an instruction's word that it does not ignore (R73, R75, R79). -/
def careMask : Instr → Word
  | .cls | .ret => 0xF0FF
  | .seVxVy _ _ | .sneVxVy _ _ => 0xFFF0
  | _ => 0xFFFF

/-! ## The opcode map (R80) -/

/-- One row of the opcode map: "a word `w` is the instruction when `w and mask = match`", and how the instruction's
operands stand in such a word. -/
structure OpcodeRow where
  mask : Word
  bits : Word
  read : Word → Instr

/-- The 34 rows of R80, in its order. -/
def opcodeMap : List OpcodeRow :=
  [⟨0xF0FF, 0x00E0, fun _ => .cls⟩, ⟨0xF0FF, 0x00EE, fun _ => .ret⟩,
   ⟨0xF000, 0x1000, fun w => .jp (Field.nnn w)⟩, ⟨0xF000, 0x2000, fun w => .call (Field.nnn w)⟩,
   ⟨0xF000, 0x3000, fun w => .seVxKk (Field.x w) (Field.kk w)⟩,
   ⟨0xF000, 0x4000, fun w => .sneVxKk (Field.x w) (Field.kk w)⟩,
   ⟨0xF000, 0x5000, fun w => .seVxVy (Field.x w) (Field.y w)⟩,
   ⟨0xF000, 0x6000, fun w => .ldVxKk (Field.x w) (Field.kk w)⟩,
   ⟨0xF000, 0x7000, fun w => .addVxKk (Field.x w) (Field.kk w)⟩] ++
  [⟨0xF00F, 0x8000, fun w => .ldVxVy (Field.x w) (Field.y w)⟩,
   ⟨0xF00F, 0x8001, fun w => .orVxVy (Field.x w) (Field.y w)⟩,
   ⟨0xF00F, 0x8002, fun w => .andVxVy (Field.x w) (Field.y w)⟩,
   ⟨0xF00F, 0x8003, fun w => .xorVxVy (Field.x w) (Field.y w)⟩,
   ⟨0xF00F, 0x8004, fun w => .addVxVy (Field.x w) (Field.y w)⟩,
   ⟨0xF00F, 0x8005, fun w => .subVxVy (Field.x w) (Field.y w)⟩,
   ⟨0xF00F, 0x8006, fun w => .shrVxVy (Field.x w) (Field.y w)⟩,
   ⟨0xF00F, 0x8007, fun w => .subnVxVy (Field.x w) (Field.y w)⟩,
   ⟨0xF00F, 0x800E, fun w => .shlVxVy (Field.x w) (Field.y w)⟩] ++
  [⟨0xF000, 0x9000, fun w => .sneVxVy (Field.x w) (Field.y w)⟩,
   ⟨0xF000, 0xA000, fun w => .ldINnn (Field.nnn w)⟩, ⟨0xF000, 0xB000, fun w => .jpV0 (Field.nnn w)⟩,
   ⟨0xF000, 0xC000, fun w => .rndVxKk (Field.x w) (Field.kk w)⟩,
   ⟨0xF000, 0xD000, fun w => .drw (Field.x w) (Field.y w) (Field.n w)⟩,
   ⟨0xF0FF, 0xE09E, fun w => .skp (Field.x w)⟩, ⟨0xF0FF, 0xE0A1, fun w => .sknp (Field.x w)⟩] ++
  [⟨0xF0FF, 0xF007, fun w => .ldVxDt (Field.x w)⟩, ⟨0xF0FF, 0xF00A, fun w => .ldVxK (Field.x w)⟩,
   ⟨0xF0FF, 0xF015, fun w => .ldDtVx (Field.x w)⟩, ⟨0xF0FF, 0xF018, fun w => .ldStVx (Field.x w)⟩,
   ⟨0xF0FF, 0xF01E, fun w => .addIVx (Field.x w)⟩, ⟨0xF0FF, 0xF029, fun w => .ldFVx (Field.x w)⟩,
   ⟨0xF0FF, 0xF033, fun w => .ldBVx (Field.x w)⟩, ⟨0xF0FF, 0xF055, fun w => .ldMemVx (Field.x w)⟩,
   ⟨0xF0FF, 0xF065, fun w => .ldVxMem (Field.x w)⟩]

end Sys2Proof
end

