-- ==== Sys2Proof/Machine/State.lean ====
section
/-! DEFINITION. The state of the Rust8 core (spec/10_state.md R11 to R27), the model's own fields for what the
environment decides, the reasons a step can stop, and the state after reset (R27). -/

namespace Sys2Proof.Machine

/-! ## The parts of a state -/

/-- The class of a fault (60_exceptions.md R200). Class 3, I/O faults, is raised by no step (R208). -/
inductive FaultClass where
  /-- Class 1. -/
  | decode
  /-- Class 2. -/
  | bounds
  deriving DecidableEq, Repr

/-- The cause of a fault (60_exceptions.md R202), codes 1 to 7 in this order. -/
inductive FaultCause where
  | illegal
  | mem
  | stackOverflow
  | stackUnderflow
  | key
  | index
  | load
  deriving DecidableEq, Repr

/-- The fault record `(class, cause, pc, word, info)` (60_exceptions.md R203). `word` is none when the fetch itself
faulted or the fault is `LOAD`. -/
structure FaultRecord where
  cls : FaultClass
  cause : FaultCause
  pc : Addr
  word : Option Word
  info : Nat
  deriving DecidableEq, Repr

/-- Memory: the bytes that differ from the reset contents, as (address, byte) pairs with strictly rising addresses.
What an address not listed reads as is `Memory.unlisted` (log 14). -/
abbrev Memory := List Host.Cell

/-- The frame buffer: 32 rows of 64 bits, row 0 at the top, column 0 at bit 63 (R21; the spec's decision D16, log 18). -/
abbrev FrameBuffer := Vector (BitVec 64) Config.rows

/-- The sixteen key flags (R22). -/
abbrev KeyFlags := Vector Bool 16

/-- What one refresh presents on `frame_out`: all rows and all key flags, read in one step (60_exceptions.md R232). -/
structure Snapshot where
  fb : FrameBuffer
  keys : KeyFlags
  deriving DecidableEq, Repr

/-! ## The state -/

/-- The state of the Rust8 core. The first thirteen fields are the spec's ("exactly", R11); the last six are the
model's own, and carry what the environment decides. -/
structure State where
  /-- `x[0..15]` (R13); `x[15]` is also the flag register (R14). -/
  x : Vector Byte 16
  /-- The index register (R17). -/
  I : Addr
  /-- The program counter (R15). -/
  pc : Addr
  /-- `STACK[0..STACK_DEPTH−1]` (R18). -/
  stack : Vector Addr Config.stackDepth
  /-- `SP`, the number of valid stack entries (R18). -/
  sp : Fin (Config.stackDepth + 1)
  /-- The delay counter (R19). -/
  dt : Byte
  /-- The sound counter (R19). -/
  st : Byte
  /-- `MEM` (R20). -/
  mem : Memory
  /-- `FB` (R21). -/
  fb : FrameBuffer
  /-- `KEYS` (R22). -/
  keys : KeyFlags
  /-- `LAST_KEY` (R22). -/
  lastKey : Option KeyIdx
  /-- `EXIT` (R23). -/
  exit : Bool
  /-- `FAULT` (R24). -/
  fault : Option FaultRecord
  /-- The model's own: the agents that step next, in order; after them, free values (60_exceptions.md R240; log 4). -/
  schedule : List Agent
  /-- The model's own: the index of the next free turn, advanced by each turn that the schedule does not name (log 4). -/
  turns : Nat
  /-- The model's own: what the `key_in` port delivers next; after it, free values (R224; log 5). -/
  keyIn : List KeySample
  /-- The model's own: what the `rand_in` port delivers next; after it, free values (R124; log 6). -/
  randIn : List Byte
  /-- The model's own: the index of the next free value of either port (log 5, log 6). -/
  draws : Nat
  /-- The model's own: what the `frame_out` port last presented (R232; log 19). -/
  frameOut : Option Snapshot
  deriving DecidableEq, Repr

/-! ## How a step can stop -/

/-- Why a step stops. The step that raises a fault is no such stop: it is a next state with `FAULT` written
(60_exceptions.md R204; log 2). -/
inductive Fault where
  /-- Raised by `step` in every state with `FAULT ≠ none`: "no agent takes any further step" (R206). Safe. -/
  | halted (r : FaultRecord)
  /-- Raised by `step` in every state with `EXIT = 1` and `FAULT = none`: "no agent begins another step", the clean end
  of a run (R210, R246). Safe. -/
  | exited
  deriving DecidableEq, Repr

/-- What the model refuses. -/
inductive Refusal where
  /-- Raised by `exec` for an instruction that has no meaning yet; no arm raises it. Safe. -/
  | notModelled (mnemonic : String)
  /-- Raised by `State.pointQuery`, never by `step`: a pixel outside the display, "outside the contract and a model
  refuses it" (44_draw.md R156; log 21). Safe. -/
  | pointOutsideDisplay (row col : Nat)
  deriving DecidableEq, Repr

/-- The outcome of an agent's step. -/
abbrev Result := Host.Outcome State Fault Refusal

/-! ## Reset -/

/-- R27, for the empty image: `pc` = 0x200 and the font are from the source, every other value is the spec's decision
D4 (log 1). An empty memory list is the reset contents (log 14). The six last values are the model's (log 4 to log 6,
log 19). -/
def State.reset : State where
  x := Vector.replicate 16 0
  I := 0
  pc := BitVec.ofNat 16 Config.loadBase
  stack := Vector.replicate Config.stackDepth 0
  sp := 0
  dt := 0
  st := 0
  mem := []
  fb := Vector.replicate Config.rows 0
  keys := Vector.replicate 16 false
  lastKey := none
  exit := false
  fault := none
  schedule := []
  turns := 0
  keyIn := []
  randIn := []
  draws := 0
  frameOut := none

end Sys2Proof.Machine
end

