-- ==== Sys2Proof/Machine/Ops.lean ====
section
/-! DEFINITION. The named operations over memory, registers, stack, ports and schedule, and the taking of a fault as ONE
operation (`State.raise`). Every meaning is written with these. -/

namespace Sys2Proof.Machine

/-! ## Memory (spec/20_memory.md) -/

/-- What an address that is not listed reads as: the font at 0x000..0x04F, zero elsewhere (10_state.md R27, R52, R263;
log 14). -/
def Memory.unlisted (a : Nat) : Byte := Params.font.getD (a - Params.fontBase) 0

/-- `MEM[a]`. -/
def Memory.read : Memory → Nat → Byte
  | [], a => Memory.unlisted a
  | (b, v) :: rest, a => if b = a then v else Memory.read rest a

/-- The list without address `a`. -/
def Memory.erase : Memory → Nat → Memory
  | [], _ => []
  | (b, v) :: rest, a => if b = a then Memory.erase rest a else (b, v) :: Memory.erase rest a

/-- The list with `(a, v)` at its place. -/
def Memory.insert : Memory → Nat → Byte → Memory
  | [], a, v => [(a, v)]
  | (b, w) :: rest, a, v =>
    if a < b then (a, v) :: (b, w) :: rest
    else if b = a then (a, v) :: rest
    else (b, w) :: Memory.insert rest a v

/-- `MEM[a] <- v` (R43, `set8`), keeping the canonical form. -/
def Memory.write (m : Memory) (a : Nat) (v : Byte) : Memory :=
  if v = Memory.unlisted a then m.erase a else m.insert a v

/-- R43, `set16`: `MEM[a] <- v[15:8]`, `MEM[a+1] <- v[7:0]`. -/
def Memory.write16 (m : Memory) (a : Nat) (v : Word) : Memory := (m.write a (highByte v)).write (a + 1) (lowByte v)

/-- R42, `get16`: `MEM[a] ++ MEM[a+1]`. -/
def Memory.read16 (m : Memory) (a : Nat) : Word := wordOfBytes (m.read a) (m.read (a + 1))

/-- The bytes at `a`, `a + 1`, ..., `a + n − 1` (R46, R48). -/
def Memory.readBytes (m : Memory) (a : Nat) : Nat → List Byte
  | 0 => []
  | n + 1 => m.read a :: Memory.readBytes m (a + 1) n

/-- The bytes of a list written at `a`, `a + 1`, ... in order (R46, R48). -/
def Memory.writeBytes (m : Memory) (a : Nat) : List Byte → Memory
  | [] => m
  | v :: rest => Memory.writeBytes (m.write a v) (a + 1) rest

/-- The canonical form: addresses strictly rising and below `MEM_SIZE`, no entry equal to what an unlisted address
reads as. -/
def Memory.wf : Memory → Bool
  | [] => true
  | (a, v) :: rest =>
    decide (a < Params.memSize) && decide (v ≠ Memory.unlisted a) && rest.all (fun c => decide (a < c.1)) &&
      Memory.wf rest

/-- R41: `addr + n ≤ MEM_SIZE`, on natural numbers. -/
def inRange (addr n : Nat) : Bool := decide (addr + n ≤ Params.memSize)

/-! ## Plain updates of a state -/

/-- `pc <- a`. -/
def State.setPc (s : State) (a : Addr) : State := { s with pc := a }

/-- `pc <- (pc + n) mod 65536` (10_state.md R16). -/
def State.advance (s : State) (n : Nat) : State := s.setPc (s.pc + BitVec.ofNat 16 n)

/-- `x[r]` (R13). -/
def State.reg (s : State) (r : RegIdx) : Byte := s.x[r.val]

/-- `x[r] <- v` (R13: no register is hard-wired). -/
def State.setReg (s : State) (r : RegIdx) (v : Byte) : State := { s with x := s.x.set r.val v }

/-- `I <- a` (R17). -/
def State.setI (s : State) (a : Addr) : State := { s with I := a }

/-- `DT <- v` (R19). -/
def State.setDt (s : State) (v : Byte) : State := { s with dt := v }

/-- `ST <- v` (R19). -/
def State.setSt (s : State) (v : Byte) : State := { s with st := v }

/-- `MEM` replaced. -/
def State.setMem (s : State) (m : Memory) : State := { s with mem := m }

/-- `FB` replaced. -/
def State.setFb (s : State) (fb : FrameBuffer) : State := { s with fb := fb }

/-- `STACK` and `SP` replaced. -/
def State.setStack (s : State) (stack : Vector Addr Config.stackDepth) (sp : Fin (Config.stackDepth + 1)) : State :=
  { s with stack := stack, sp := sp }

/-- `KEYS` and `LAST_KEY` replaced. -/
def State.setKeys (s : State) (keys : KeyFlags) (last : Option KeyIdx) : State := { s with keys := keys, lastKey := last }

/-- `EXIT <- 1` (R23). -/
def State.setExit (s : State) : State := { s with exit := true }

/-- `FAULT <- r` (R24). -/
def State.setFault (s : State) (r : FaultRecord) : State := { s with fault := some r }

/-- What is still to come on the `key_in` port. -/
def State.setKeyIn (s : State) (rest : List KeySample) (draws : Nat) : State := { s with keyIn := rest, draws := draws }

/-- What is still to come on the `rand_in` port. -/
def State.setRandIn (s : State) (rest : List Byte) (draws : Nat) : State := { s with randIn := rest, draws := draws }

/-- The agents that step next. -/
def State.setSchedule (s : State) (rest : List Agent) : State := { s with schedule := rest }

/-- What the `frame_out` port presents. -/
def State.setFrameOut (s : State) (f : Snapshot) : State := { s with frameOut := some f }

/-! ## Registers 0 to X together (46_f_misc.md R176, R177) -/

/-- `x[0], ..., x[n−1]`. -/
def State.firstRegs (s : State) (n : Nat) : List Byte := s.x.toList.take n

/-- A list of bytes written to the registers from number `k` up. -/
def writeRegs (regs : Vector Byte 16) (k : Nat) : List Byte → Vector Byte 16
  | [] => regs
  | v :: rest => writeRegs (regs.setIfInBounds k v) (k + 1) rest

/-- `x[0], x[1], ... <- the bytes of a list`. -/
def State.setFirstRegs (s : State) (vs : List Byte) : State := { s with x := writeRegs s.x 0 vs }

/-! ## The call stack (10_state.md R18) -/

/-- The number of the newest entry, or none of an empty stack. -/
def State.top? (s : State) : Option (Fin Config.stackDepth) :=
  if h : s.sp.val = 0 then none else some ⟨s.sp.val - 1, by have := s.sp.isLt; omega⟩

/-- The newest entry, and the state without it; none of an empty stack. The entry stays in `STACK` (40_flow.md R101). -/
def State.pop? (s : State) : Option (Addr × State) :=
  s.top?.map fun k => (s.stack[k.val], s.setStack s.stack k.castSucc)

/-- The state with `a` pushed; none of a full stack. -/
def State.push? (s : State) (a : Addr) : Option State :=
  if h : s.sp.val < Config.stackDepth then
    some (s.setStack (s.stack.set s.sp.val a) (Fin.succ ⟨s.sp.val, h⟩))
  else none

/-! ## Fetch (30_encoding.md R71, 20_memory.md R44) -/

/-- `MemRead(pc, 2)`; none when `pc + 2 > MEM_SIZE`. -/
def State.fetch? (s : State) : Option Word :=
  if inRange s.pc.toNat 2 then some (s.mem.read16 s.pc.toNat) else none

/-! ## Taking a fault (60_exceptions.md R202 to R204) -/

/-- The class of a cause (R202). -/
def FaultCause.cls : FaultCause → FaultClass
  | .illegal => .decode
  | .mem | .stackOverflow | .stackUnderflow | .key | .index | .load => .bounds

/-- The code of a cause (R202; the spec's decision D25). -/
def FaultCause.code : FaultCause → Nat
  | .illegal => 1
  | .mem => 2
  | .stackOverflow => 3
  | .stackUnderflow => 4
  | .key => 5
  | .index => 6
  | .load => 7

/-- The number of a class (R200). -/
def FaultClass.number : FaultClass → Nat
  | .decode => 1
  | .bounds => 2

/-- The record of a fault raised in state `s` (R203). `pc` still names the instruction (10_state.md R15), and the
fetched word is the word at `pc`, since nothing has been written (log 3). -/
def State.faultRecord (s : State) (cause : FaultCause) (info : Nat) : FaultRecord :=
  ⟨cause.cls, cause, s.pc, s.fetch?, info⟩

/-- Taking a fault: `FAULT` receives the record and nothing else is written (R204). There is no return (R205). -/
def State.raise (s : State) (cause : FaultCause) (info : Nat) : State := s.setFault (s.faultRecord cause info)

/-! ## The ports (60_exceptions.md R224, R225; 42_load_imm.md R124) -/

/-- One value of `key_in`: the next delivered one, or else a free value. -/
def State.drawKey (s : State) : KeySample × State :=
  match s.keyIn with
  | k :: rest => (k, s.setKeyIn rest s.draws)
  | [] => (Config.freeKey s.draws, s.setKeyIn [] (s.draws + 1))

/-- `Rand()`: one value of `rand_in`, the next delivered one, or else a free value (R124). -/
def State.drawRand (s : State) : Byte × State :=
  match s.randIn with
  | r :: rest => (r, s.setRandIn rest s.draws)
  | [] => (Config.freeByte s.draws, s.setRandIn [] (s.draws + 1))

/-- `KEYS[k]` (R22). -/
def State.key (s : State) (k : KeyIdx) : Bool := s.keys[k.val]

/-- The key a sample names, if any. -/
def sampledKey : KeySample → Option KeyIdx
  | .key k => some k
  | .none | .exit => none

/-- "The previous key (if any) is released" (R225). -/
def releaseKey (keys : KeyFlags) : Option KeyIdx → KeyFlags
  | some p => keys.set p.val false
  | none => keys

/-- "And the new key (if any) is pressed" (R225). -/
def pressKey (keys : KeyFlags) : Option KeyIdx → KeyFlags
  | some k => keys.set k.val true
  | none => keys

/-- What a sample does to the input state (R225). -/
def State.applySample (s : State) (v : KeySample) : State :=
  if v = .exit then s.setExit
  else if sampledKey v = s.lastKey then s
  else s.setKeys (pressKey (releaseKey s.keys s.lastKey) (sampledKey v)) (sampledKey v)

/-- `Sample()`: a value of `key_in`, applied and returned (R225). -/
def State.sample (s : State) : KeySample × State := (s.drawKey.1, s.drawKey.2.applySample s.drawKey.1)

/-- A raw key code arrives: the port will deliver what `KEYMAP` makes of it (R224; log 20). -/
def State.deliverRawKey (s : State) (code : Byte) : State := s.setKeyIn (s.keyIn ++ [Config.keymap code]) s.draws

/-! ## Outputs (60_exceptions.md R222, R232, R233; 44_draw.md R156, R157) -/

/-- `tone_out`: 1 exactly while `ST ≠ 0` (R222). -/
def State.toneOut (s : State) : Bool := decide (s.st ≠ 0)

/-- `status_out`: `EXIT` and `FAULT` (R233). -/
def State.statusOut (s : State) : Bool × Option FaultRecord := (s.exit, s.fault)

/-- What a refresh presents now: `GetFrame()` and the key flags (R232, R157). -/
def State.snapshot (s : State) : Snapshot := ⟨s.fb, s.keys⟩

/-! ## The schedule (60_exceptions.md R240; log 4) -/

/-- The agent that steps next: the next scheduled one, or else a free value, any of the four (R240, R12). -/
def State.turn (s : State) : Agent :=
  match s.schedule with
  | a :: _ => a
  | [] => Config.freeAgent s.turns

/-- How many free turns have been taken when this one has. -/
def State.turnsAfter (s : State) : Nat :=
  match s.schedule with
  | _ :: _ => s.turns
  | [] => s.turns + 1

/-- The state in which that agent steps: its turn is taken. -/
def State.popTurn (s : State) : State := { s with schedule := s.schedule.tail, turns := s.turnsAfter }

/-- The schedule with the `CPU` first. -/
def cpuFirst : List Agent → List Agent
  | .cpu :: rest => .cpu :: rest
  | rest => .cpu :: rest

/-! ## Placing a word where the next step fetches it (log 12) -/

/-- A state whose next step is a fetch: not halted, not ended, the `CPU` scheduled first, `pc` inside memory. It is the
state itself where all of that holds. -/
def State.readyToFetch (s : State) : State :=
  { s with
    fault := none
    exit := false
    schedule := cpuFirst s.schedule
    pc := if inRange s.pc.toNat 2 then s.pc else BitVec.ofNat 16 Config.loadBase }

/-- The state with a word stored where the next step fetches, high byte first. -/
def State.placeWord (s : State) (w : Word) : State :=
  s.readyToFetch.setMem (s.readyToFetch.mem.write16 s.readyToFetch.pc.toNat w)

end Sys2Proof.Machine
end

