-- ==== Sys2Proof/Machine/Operands.lean ====
section
/-! DEFINITION. The operand forms (spec/30_encoding.md R74): immediates extended with zeros, the source of a shift, and
the only addressing mode, bytes at `I`, `I + 1`, ... (20_memory.md R48), with its range check (R41) and the additions to
`I` (46_f_misc.md, helper `IndexAdd`). -/

namespace Sys2Proof.Machine

/-- `zext_16(NNN)` (R74). -/
def zext16 (nnn : BitVec 12) : Addr := BitVec.ofNat 16 nnn.toNat

/-- The register a shift shifts, for a value of `SHIFT_SRC` (43_alu.md R137, R139). -/
def shiftReg (src : ShiftSrc) (x y : RegIdx) : RegIdx :=
  match src with
  | .X => x
  | .Y => y

/-- The number of a key held in a register: the whole 8-bit register, not masked; none above 15 (45_key.md R160). -/
def keyIndex? (v : Byte) : Option KeyIdx := if h : v.toNat < 16 then some ⟨v.toNat, h⟩ else none

/-- The number of a key as the byte `LD Vx, K` stores (45_key.md R162). -/
def keyByte (k : KeyIdx) : Byte := BitVec.ofNat 8 k.val

/-- The n bytes at `I`; none when they do not all lie below `MEM_SIZE`. No byte needs no check (44_draw.md R150). -/
def State.bytesAtI? (s : State) (n : Nat) : Option (List Byte) :=
  if n = 0 ∨ inRange s.I.toNat n then some (s.mem.readBytes s.I.toNat n) else none

/-- The state with the bytes of a list stored at `I`; none when they do not all fit below `MEM_SIZE`. -/
def State.storeAtI? (s : State) (vs : List Byte) : Option State :=
  if inRange s.I.toNat vs.length then some (s.setMem (s.mem.writeBytes s.I.toNat vs)) else none

/-- `IndexAdd(v)`: the new `I`, or the unreduced sum that is out of range (46_f_misc.md). -/
def indexAdd (mode : IndexOverflow) (i : Addr) (v : Nat) : Except Nat Addr :=
  if i.toNat + v ≤ 0xFFFF then .ok (BitVec.ofNat 16 (i.toNat + v))
  else match mode with
    | .wrap => .ok (BitVec.ofNat 16 (i.toNat + v))
    | .fault => .error (i.toNat + v)

/-- The hundreds, tens and ones digits of a byte (46_f_misc.md R175). -/
def decimalDigits (v : Byte) : List Byte :=
  [BitVec.ofNat 8 (v.toNat / 100), BitVec.ofNat 8 (v.toNat / 10 % 10), BitVec.ofNat 8 (v.toNat % 10)]

/-- What a block transfer adds to `I`, whatever its length (46_f_misc.md R176, R177). -/
def blockAdvance : Nat := 8

end Sys2Proof.Machine
end

