-- ==== Sys2Proof/Machine/Alu.lean ====
section
/-! DEFINITION. Family 8: register-to-register operations (spec/43_alu.md R130 to R139), all in the frame of R130. -/

namespace Sys2Proof.Machine

/-- R130 for an operation without a flag: both operands are read, then `x[X]` is written. -/
def aluPlain (op : Byte → Byte → Byte) (x y : RegIdx) (s : State) : Result :=
  .next ((s.setReg x (op (s.reg x) (s.reg y))).advance 2)

/-- R130 for an operation with a flag: both operands are read, then `x[X]` is written, then `x[15]`, which wins when
`X = 15`. -/
def aluFlag (op : Byte → Byte → Byte) (flag : Byte → Byte → Bool) (x y : RegIdx) (s : State) : Result :=
  .next (((s.setReg x (op (s.reg x) (s.reg y))).setReg 15 (Byte.ofFlag (flag (s.reg x) (s.reg y)))).advance 2)

/-- `LD Vx, Vy` (R131). -/
def execLdVxVy (x y : RegIdx) (s : State) : Result := aluPlain (fun _ b => b) x y s

/-- `OR Vx, Vy` (R132). -/
def execOrVxVy (x y : RegIdx) (s : State) : Result := aluPlain (fun a b => a ||| b) x y s

/-- `AND Vx, Vy` (R133). -/
def execAndVxVy (x y : RegIdx) (s : State) : Result := aluPlain (fun a b => a &&& b) x y s

/-- `XOR Vx, Vy` (R134). -/
def execXorVxVy (x y : RegIdx) (s : State) : Result := aluPlain (fun a b => a ^^^ b) x y s

/-- `ADD Vx, Vy` (R135). -/
def execAddVxVy (x y : RegIdx) (s : State) : Result := aluFlag addResult addCarry x y s

/-- `SUB Vx, Vy` (R136). -/
def execSubVxVy (x y : RegIdx) (s : State) : Result := aluFlag subResult (subFlag Params.subFlagSense) x y s

/-- `SUBN Vx, Vy` (R138): `x[Y] − x[X]`. -/
def execSubnVxVy (x y : RegIdx) (s : State) : Result :=
  aluFlag (fun a b => subResult b a) (fun a b => subFlag Params.subFlagSense b a) x y s

/-- A shift in the frame of R130, for a value of `SHIFT_SRC` (R137, R139). -/
def aluShift (src : ShiftSrc) (op : Byte → Byte) (flag : Byte → Bool) (x y : RegIdx) (s : State) : Result :=
  .next (((s.setReg x (op (s.reg (shiftReg src x y)))).setReg 15
    (Byte.ofFlag (flag (s.reg (shiftReg src x y))))).advance 2)

/-- `SHR Vx` (R137). -/
def execShrVxVy (x y : RegIdx) (s : State) : Result := aluShift Params.shiftSrc shrResult shrFlag x y s

/-- `SHL Vx` (R139). -/
def execShlVxVy (x y : RegIdx) (s : State) : Result := aluShift Params.shiftSrc shlResult shlFlag x y s

end Sys2Proof.Machine
end

