-- ==== Sys2Proof/Machine/Draw.lean ====
section
/-! DEFINITION. Family D and the display unit (spec/44_draw.md R150 to R157). -/

namespace Sys2Proof.Machine

/-- `FB[r][c]`: 1 when the pixel is set; column 0 is bit 63 of its row (R153). -/
def pixel (fb : FrameBuffer) (r : Fin 32) (c : Fin 64) : Bool := (fb[r.val]).getLsbD (63 - c.val)

/-- `FB[r][c] <- FB[r][c] xor 1`. -/
def togglePixel (fb : FrameBuffer) (r : Fin 32) (c : Fin 64) : FrameBuffer :=
  fb.set r.val (fb[r.val] ^^^ (1#64 <<< (63 - c.val)))

/-- The display row of sprite row i: `(row + i) mod 32` (R151). -/
def drawRow (row i : Nat) : Fin 32 := ⟨(row + i) % 32, Nat.mod_lt _ (by decide)⟩

/-- The display column of sprite pixel j: `(col + j) mod 64`, in the same display row (R154, the spec's decision D14:
"a model should keep the column rule in one named function so that it can be replaced"; log 15). -/
def drawColumn (col j : Nat) : Fin 64 := ⟨(col + j) % 64, Nat.mod_lt _ (by decide)⟩

/-- Pixel j of a sprite byte: bit `7 − j`, bit 7 the leftmost (R153). -/
def spritePixel (b : Byte) (j : Nat) : Bool := b.getLsbD (7 - j)

/-- A frame buffer and whether a pixel has gone from 1 to 0 so far. -/
abbrev Raster := FrameBuffer × Bool

/-- One covered pixel with a sprite bit of 1 (the body of R151). -/
def plot (r : Fin 32) (c : Fin 64) (acc : Raster) : Raster :=
  (togglePixel acc.1 r c, acc.2 || pixel acc.1 r c)

/-- Pixels `j, j + 1, ..., 7` of one sprite byte, `fuel` of them. -/
def drawPixels (r : Fin 32) (col : Nat) (b : Byte) : Nat → Nat → Raster → Raster
  | 0, _, acc => acc
  | fuel + 1, j, acc =>
    drawPixels r col b fuel (j + 1) (if spritePixel b j then plot r (drawColumn col j) acc else acc)

/-- Sprite rows `i, i + 1, ...`. -/
def drawRows (row col : Nat) : Nat → List Byte → Raster → Raster
  | _, [], acc => acc
  | i, b :: rest, acc => drawRows row col (i + 1) rest (drawPixels (drawRow row i) col b 8 0 acc)

/-- `Draw(row, col, s)`: the new frame buffer and `hit` (R151). -/
def draw (fb : FrameBuffer) (row col : Nat) (sprite : List Byte) : Raster := drawRows row col 0 sprite (fb, false)

/-- `DRW Vx, Vy, n` (R150): column `x[X]`, row `x[Y]`, both read before `x[15]` is written. -/
def execDrw (x y : RegIdx) (n : Fin 16) (s : State) : Result :=
  match s.bytesAtI? n.val with
  | none => .next (s.raise .mem s.I.toNat)
  | some sprite =>
    let out := draw s.fb (s.reg y).toNat (s.reg x).toNat sprite
    .next (((s.setFb out.1).setReg 15 (Byte.ofFlag out.2)).advance 2)

/-- `PointQuery(row, col)`, the `point_query` port (R156): refused outside the display. -/
def State.pointQuery (s : State) (row col : Nat) : Except Refusal Bool :=
  if h : row < 32 ∧ col < 64 then .ok (pixel s.fb ⟨row, h.1⟩ ⟨col, h.2⟩) else .error (.pointOutsideDisplay row col)

end Sys2Proof.Machine
end

