-- ==== Sys2Proof/Machine/Flow.lean ====
section
/-! DEFINITION. Families 0, 1, 2 and B: clear, return, jump, call, computed jump (spec/40_flow.md R100 to R104). -/

namespace Sys2Proof.Machine

/-- `Clear()`: all rows zero (44_draw.md R152). -/
def clearedDisplay : FrameBuffer := Vector.replicate Config.rows 0

/-- `CLS` (R100). -/
def execCls (s : State) : Result := .next ((s.setFb clearedDisplay).advance 2)

/-- `RET` (R101): the popped entry is the address of the `CALL`, and the default +2 is still applied. -/
def execRet (s : State) : Result :=
  match s.pop? with
  | none => .next (s.raise .stackUnderflow 0)
  | some (t, s1) => .next ((s1.setPc t).advance 2)

/-- `JP nnn` (R102). -/
def execJp (nnn : BitVec 12) (s : State) : Result := .next (s.setPc (zext16 nnn))

/-- `CALL nnn` (R103): it pushes its own address. -/
def execCall (nnn : BitVec 12) (s : State) : Result :=
  match s.push? s.pc with
  | none => .next (s.raise .stackOverflow s.sp.val)
  | some s1 => .next (s1.setPc (zext16 nnn))

/-- `JP V0, nnn` (R104): the sum is not reduced to 12 bits. -/
def execJpV0 (nnn : BitVec 12) (s : State) : Result :=
  .next (s.setPc (BitVec.ofNat 16 ((s.reg 0).toNat + nnn.toNat)))

end Sys2Proof.Machine
end

