-- ==== Sys2Proof/Machine/Skip.lean ====
section
/-! DEFINITION. Families 3, 4, 5 and 9: conditional skips on registers (spec/41_skip.md R110 to R113). -/

namespace Sys2Proof.Machine

/-- "Advance PC by 4 total when the condition holds, by 2 when it does not" (10_state.md R16). -/
def State.skipIf (s : State) (cond : Bool) : State := s.advance (if cond then 4 else 2)

/-- `SE Vx, kk` (R110). -/
def execSeVxKk (x : RegIdx) (kk : Byte) (s : State) : Result := .next (s.skipIf (s.reg x == kk))

/-- `SNE Vx, kk` (R111). -/
def execSneVxKk (x : RegIdx) (kk : Byte) (s : State) : Result := .next (s.skipIf (s.reg x != kk))

/-- `SE Vx, Vy` (R112). -/
def execSeVxVy (x y : RegIdx) (s : State) : Result := .next (s.skipIf (s.reg x == s.reg y))

/-- `SNE Vx, Vy` (R113). -/
def execSneVxVy (x y : RegIdx) (s : State) : Result := .next (s.skipIf (s.reg x != s.reg y))

end Sys2Proof.Machine
end

