-- ==== Sys2Proof/Machine/Key.lean ====
section
/-! DEFINITION. Family E and FX0A: key-pad skips and the key wait (spec/45_key.md R160 to R162). -/

namespace Sys2Proof.Machine

/-- R160, R161: the key number is checked, then the pad is sampled, then `KEYS[k]` is compared with `wanted`. -/
def skipOnKey (wanted : Bool) (x : RegIdx) (s : State) : Result :=
  match keyIndex? (s.reg x) with
  | none => .next (s.raise .key (s.reg x).toNat)
  | some k => .next (s.sample.2.skipIf (s.sample.2.key k == wanted))

/-- `SKP Vx` (R160). -/
def execSkp (x : RegIdx) (s : State) : Result := skipOnKey true x s

/-- `SKNP Vx` (R161). -/
def execSknp (x : RegIdx) (s : State) : Result := skipOnKey false x s

/-- What an attempt of the key wait does after its sample (R162). -/
def endKeyWait (x : RegIdx) (v : KeySample) (s : State) : State :=
  match v with
  | .key k => (s.setReg x (keyByte k)).advance 2
  | .none | .exit => s

/-- `LD Vx, K` (R162): one attempt. -/
def execLdVxK (x : RegIdx) (s : State) : Result := .next (endKeyWait x s.sample.1 s.sample.2)

end Sys2Proof.Machine
end

