-- ==== Sys2Proof/Machine/LoadImm.lean ====
section
/-! DEFINITION. Families 6, 7, A and C: immediate loads, immediate add, random (spec/42_load_imm.md R120 to R124). -/

namespace Sys2Proof.Machine

/-- `LD Vx, kk` (R120). -/
def execLdVxKk (x : RegIdx) (kk : Byte) (s : State) : Result := .next ((s.setReg x kk).advance 2)

/-- `ADD Vx, kk` (R121): wraps, writes no flag. -/
def execAddVxKk (x : RegIdx) (kk : Byte) (s : State) : Result :=
  .next ((s.setReg x (addResult (s.reg x) kk)).advance 2)

/-- `LD I, nnn` (R122). -/
def execLdINnn (nnn : BitVec 12) (s : State) : Result := .next ((s.setI (zext16 nnn)).advance 2)

/-- `RND Vx, kk` (R123): `KK and r` for one fresh draw r. -/
def execRndVxKk (x : RegIdx) (kk : Byte) (s : State) : Result :=
  .next ((s.drawRand.2.setReg x (kk &&& s.drawRand.1)).advance 2)

end Sys2Proof.Machine
end

