-- ==== Sys2Proof/Machine/Misc.lean ====
section
/-! DEFINITION. Family F: timers, index arithmetic, font, decimal digits, register block transfers
(spec/46_f_misc.md R170 to R177). -/

namespace Sys2Proof.Machine

/-- `LD Vx, DT` (R170). -/
def execLdVxDt (x : RegIdx) (s : State) : Result := .next ((s.setReg x s.dt).advance 2)

/-- `LD DT, Vx` (R171). -/
def execLdDtVx (x : RegIdx) (s : State) : Result := .next ((s.setDt (s.reg x)).advance 2)

/-- `LD ST, Vx` (R172). -/
def execLdStVx (x : RegIdx) (s : State) : Result := .next ((s.setSt (s.reg x)).advance 2)

/-- `ADD I, Vx` (R173). -/
def execAddIVx (x : RegIdx) (s : State) : Result :=
  match indexAdd Params.indexOverflow s.I (s.reg x).toNat with
  | .error sum => .next (s.raise .index sum)
  | .ok i => .next ((s.setI i).advance 2)

/-- `LD F, Vx` (R174): `I <- x[X] × 5`, not masked. -/
def execLdFVx (x : RegIdx) (s : State) : Result := .next ((s.setI (BitVec.ofNat 16 ((s.reg x).toNat * 5))).advance 2)

/-- `LD B, Vx` (R175). -/
def execLdBVx (x : RegIdx) (s : State) : Result :=
  match s.storeAtI? (decimalDigits (s.reg x)) with
  | none => .next (s.raise .mem s.I.toNat)
  | some s1 => .next (s1.advance 2)

/-- `LD [I], Vx` (R176): X+1 bytes, then `I` advances by a fixed 8. -/
def execLdMemVx (x : RegIdx) (s : State) : Result :=
  match s.storeAtI? (s.firstRegs (x.val + 1)) with
  | none => .next (s.raise .mem s.I.toNat)
  | some s1 =>
    match indexAdd Params.indexOverflow s.I blockAdvance with
    | .error sum => .next (s.raise .index sum)
    | .ok i => .next ((s1.setI i).advance 2)

/-- `LD Vx, [I]` (R177): X+1 bytes, then `I` advances by the same fixed 8. -/
def execLdVxMem (x : RegIdx) (s : State) : Result :=
  match s.bytesAtI? (x.val + 1) with
  | none => .next (s.raise .mem s.I.toNat)
  | some vs =>
    match indexAdd Params.indexOverflow s.I blockAdvance with
    | .error sum => .next (s.raise .index sum)
    | .ok i => .next (((s.setFirstRegs vs).setI i).advance 2)

end Sys2Proof.Machine
end

