-- ==== Sys2Proof/Machine/Agents.lean ====
section
/-! DEFINITION. The steps of the agents (spec/10_state.md R10, 60_exceptions.md R221, R226, R232, R247), the choice of
the agent that steps (R240), and the reset and load of the `HOST` agent (70_reset_and_hazards.md R260 to R264). -/

namespace Sys2Proof.Machine

/-- The `CPU` step (R247): fetch, decode, execute, with the checks in the order of R207. -/
def cpuStep (s : State) : Result :=
  match s.fetch? with
  | none => .next (s.raise .mem s.pc.toNat)
  | some w =>
    match decode w with
    | .error _ => .next (s.raise .illegal w.toNat)
    | .ok i => exec i s

/-- A counter after one tick: down by one if nonzero (R221). -/
def decay (v : Byte) : Byte := BitVec.ofNat 8 (v.toNat - 1)

/-- The `TIMER` step (R221). -/
def timerStep (s : State) : Result := .next ((s.setDt (decay s.dt)).setSt (decay s.st))

/-- The `SAMPLER` step (R226). -/
def samplerStep (s : State) : Result := .next s.sample.2

/-- The `REFRESH` step (R232): the snapshot stands on `frame_out`; no state of the core changes (log 19). -/
def refreshStep (s : State) : Result := .next (s.setFrameOut s.snapshot)

/-- The step of an agent. -/
def agentStep (a : Agent) (s : State) : Result :=
  match a with
  | .cpu => cpuStep s
  | .timer => timerStep s
  | .sampler => samplerStep s
  | .refresh => refreshStep s

/-- One step of the machine: none once halted (R206) or ended (R210), else the step of the agent whose turn it is. -/
def oneStep (s : State) : Result :=
  match s.fault with
  | some r => .fault (.halted r)
  | none => if s.exit then .fault .exited else agentStep s.turn s.popTurn

/-! ## Reset and load -/

/-- Memory after a refused load: any bytes at all (R264, 93 I25; log 13). -/
def refusedLoadMemory (image : List Byte) : Memory :=
  Memory.writeBytes [] 0 ((List.range Params.memSize).map (Config.refusedLoadByte image))

/-- The `HOST` step (R260): every piece of state at its value of R27, the font, then the image at 0x200 (R264). An image
that does not fit is a `LOAD` fault, which records the reset `pc` and no word (log 13). -/
def State.boot (image : List Byte) : State :=
  if inRange Config.loadBase image.length then
    State.reset.setMem (State.reset.mem.writeBytes Config.loadBase image)
  else
    (State.reset.setMem (refusedLoadMemory image)).setFault
      ⟨FaultCause.load.cls, .load, State.reset.pc, none, image.length⟩

end Sys2Proof.Machine
end

