-- ==== Sys2Proof/Machine/Step.lean ====
section
/-! DEFINITION. One step of the machine, and a word placed where the next step fetches it. -/

namespace Sys2Proof.Machine

/-- One step (spec/60_exceptions.md R206, R210, R240). -/
def step (s : State) : Host.Outcome State Fault Refusal := oneStep s

/-- The state with the word whose low `nbits` bits are those of `w` where the next step fetches (log 12). -/
def State.withFetchWord (s : State) (nbits w : Nat) : State := s.placeWord (BitVec.ofNat 16 (w % 2 ^ nbits))

end Sys2Proof.Machine
end

