-- ==== Sys2Proof/WellFormed.lean ====
section
/-! DEFINITION. What is well-formed before the machine meets it: an instruction word (spec/30_encoding.md R81), a
program image (20_memory.md R53) and the parameters (00_scope.md R3, 93 I28). A term of `Instr` needs no check: the type
of each field is its range, so an operand out of range cannot be written (R13, R74). -/

namespace Sys2Proof.WellFormed

open Machine

/-- R81's table of the illegal words, read from the word's number: 0x0000..0xFFFF. -/
def illegalWord (w : Word) : Bool :=
  let v := w.toNat
  let family := v / 0x1000
  let low := v % 0x100
  let nibble := v % 0x10
  (family == 0x0 && !(low == 0xE0 || low == 0xEE)) ||
  (family == 0x8 && (nibble == 0x8 || nibble == 0x9 || nibble == 0xA || nibble == 0xB || nibble == 0xC ||
    nibble == 0xD || nibble == 0xF)) ||
  (family == 0xE && !(low == 0x9E || low == 0xA1)) ||
  (family == 0xF && !(low == 0x07 || low == 0x0A || low == 0x15 || low == 0x18 || low == 0x1E || low == 0x29 ||
    low == 0x33 || low == 0x55 || low == 0x65))

/-- A word that is an instruction. -/
def word (w : Word) : Bool := !illegalWord w

/-- R53: an image of L bytes is admitted when `L ≤ MEM_SIZE − 0x200`. -/
def image (bytes : List Byte) : Bool := decide (Config.loadBase + bytes.length ≤ Params.memSize)

/-- R3: `4000 ≤ MEM_SIZE ≤ 65536`. -/
def memSize (size : Nat) : Bool := decide (4000 ≤ size ∧ size ≤ 65536)

/-- R3: `STACK_DEPTH ≥ 1`. -/
def stackDepth (depth : Nat) : Bool := decide (1 ≤ depth)

/-- R3: "any 80 bytes whose first five are F0 90 90 90 F0". -/
def font (bytes : List Byte) : Bool := bytes.length == 80 && bytes.take 5 == [0xF0, 0x90, 0x90, 0x90, 0xF0]

end Sys2Proof.WellFormed
end

