-- ==== Sys2Proof/Safety.lean ====
section
/-! DEFINITION. The terms in which claims about the machine are made: a live machine and how a run ends, the invariant
of every reachable state, and the frame of a step. -/

namespace Sys2Proof

open Machine

/-! ## How a run goes on and ends (spec/60_exceptions.md R206, R210, R246) -/

/-- Some agent may step: `FAULT = none` and `EXIT = 0` (R240). -/
abbrev Live (s : State) : Prop := s.fault = none ∧ s.exit = false

/-- The clean end of a run: `EXIT` became 1 (R246). -/
abbrev CleanEnd (s : State) : Prop := s.exit = true ∧ s.fault = none

/-- The failed end of a run: `FAULT` became not `none` (R246). -/
abbrev FailedEnd (s : State) : Prop := s.fault ≠ none

/-- The CPU is about to execute `i`, the instruction that the two bytes at `pc` decode to. -/
def AboutToExecute (s : State) (i : Instr) : Prop :=
  Live s ∧ s.turn = .cpu ∧ ∃ w, s.fetch? = some w ∧ decode w = .ok i

/-! ## Runs (60_exceptions.md R240) -/

/-- `Run P s agents t`: a finite run from `s` to `t` in which the agents of the list took the steps, in order, each of them
from a state with `P`. -/
inductive Run (P : State → Prop) : State → List Agent → State → Prop where
  | nil (s : State) : Run P s [] s
  | cons {s u t : State} {agents : List Agent} (hp : P s) (hs : step s = .next u) (hr : Run P u agents t) :
      Run P s (s.turn :: agents) t

/-- A run that does not end. -/
def EndlessRun (r : Nat → State) : Prop := ∀ n, step (r n) = .next (r (n + 1))

/-- The run is weakly fair to an agent: "it is not starved for ever" (R240). In a live machine every agent may always
step, so this is that it steps again and again. -/
def FairTo (a : Agent) (r : Nat → State) : Prop := ∀ n, ∃ m, n ≤ m ∧ (r m).turn = a

/-! ## The invariant -/

/-- R227: `KEYS[k] = 1` exactly when `LAST_KEY = some k`. -/
abbrev KeysFollowLatch (s : State) : Prop := ∀ k : KeyIdx, s.key k = decide (s.lastKey = some k)

/-- Every valid stack entry is the address of a word in memory: that of the `CALL` that pushed it (10_state.md R18). -/
abbrev StackHoldsCallAddresses (s : State) : Prop :=
  ∀ k : Fin Config.stackDepth, k.val < s.sp.val → (s.stack[k.val]).toNat + 2 ≤ Params.memSize

/-- R203, R204: a record's class is its cause's, its `pc` is the state's, and its word is the one at `pc` (a refused load
has none). -/
abbrev FaultRecordIsPrecise (s : State) : Prop :=
  s.fault.all (fun r => r.cls = r.cause.cls ∧ r.pc = s.pc ∧ (r.cause = .load ∨ r.word = s.fetch?)) = true

/-- What every reachable state satisfies. -/
structure Inv (s : State) : Prop where
  mem : s.mem.wf = true
  keys : KeysFollowLatch s
  stack : StackHoldsCallAddresses s
  record : FaultRecordIsPrecise s
  oneEnd : ¬ (s.exit = true ∧ s.fault ≠ none)

/-! ## Frames -/

/-- The parts of a state that a frame speaks of, one by one. -/
inductive Part where
  | reg (r : RegIdx)
  | index
  | pc
  | stack
  | dt
  | st
  | memByte (a : Nat)
  | pixel (r : Fin 32) (c : Fin 64)
  | key (k : KeyIdx)
  | lastKey
  | exit
  | fault
  | schedule
  | turns
  | keyPort
  | randPort
  | draws
  | frameOut
  deriving DecidableEq, Repr

/-- Two states agree on a part. Of the stack only the valid entries count (10_state.md R18, 93 I24). -/
def Part.same (s t : State) : Part → Prop
  | .reg r => t.reg r = s.reg r
  | .index => t.I = s.I
  | .pc => t.pc = s.pc
  | .stack => t.sp = s.sp ∧ ∀ k : Fin Config.stackDepth, k.val < s.sp.val → t.stack[k.val] = s.stack[k.val]
  | .dt => t.dt = s.dt
  | .st => t.st = s.st
  | .memByte a => t.mem.read a = s.mem.read a
  | .pixel r c => Machine.pixel t.fb r c = Machine.pixel s.fb r c
  | .key k => t.key k = s.key k
  | .lastKey => t.lastKey = s.lastKey
  | .exit => t.exit = s.exit
  | .fault => t.fault = s.fault
  | .schedule => t.schedule = s.schedule
  | .turns => t.turns = s.turns
  | .keyPort => t.keyIn = s.keyIn
  | .randPort => t.randIn = s.randIn
  | .draws => t.draws = s.draws
  | .frameOut => t.frameOut = s.frameOut

/-- From `s` to `t` every part is unchanged except those named. -/
def UnchangedExcept (named : Part → Prop) (s t : State) : Prop := ∀ p, ¬ named p → p.same s t

/-- The parts that taking a turn writes (60_exceptions.md R240; log 4). -/
def Part.ofTurn : Part → Prop
  | .schedule | .turns => True
  | _ => False

/-- The parts that `Sample()` may write (60_exceptions.md R225), its own port included. -/
def Part.ofSample : Part → Prop
  | .key _ | .lastKey | .exit | .keyPort | .draws => True
  | _ => False

/-- The parts that a draw of `rand_in` takes from (42_load_imm.md R124). -/
def Part.ofRand : Part → Prop
  | .randPort | .draws => True
  | _ => False

/-! ## What instructions and agents do, as relations -/

/-- `i`, executed in `s`, takes the fault of this cause with this `info`: the next state has the record of R203 and
differs in nothing else (60_exceptions.md R204). -/
def FaultsWith (i : Instr) (s : State) (cause : FaultCause) (info : Nat) : Prop :=
  ∃ t, exec i s = .next t ∧ t.fault = some ⟨cause.cls, cause, s.pc, s.fetch?, info⟩ ∧
    UnchangedExcept (fun p => p = .fault) s t

/-- A sprite of n bytes at `I`, drawn in `s` at (`row`, `col`), has a bit of 1 on pixel (`r`, `c`): rows wrap `mod 32`,
columns `mod 64`, bit 7 of a byte is the leftmost (44_draw.md R151, R153, R154). -/
def SpriteSets (s : State) (row col n : Nat) (r : Fin 32) (c : Fin 64) : Prop :=
  ∃ i j, i < n ∧ j < 8 ∧ (s.mem.read (s.I.toNat + i)).getLsbD (7 - j) = true ∧
    (row + i) % 32 = r.val ∧ (col + j) % 64 = c.val

/-- From `s` to `t` a turn was taken: the next scheduled one, or a free one when none was (60_exceptions.md R240; log 4). -/
def TurnTaken (s t : State) : Prop :=
  (∃ a rest, s.schedule = a :: rest ∧ t.schedule = rest ∧ t.turns = s.turns) ∨
  (s.schedule = [] ∧ t.schedule = [] ∧ t.turns = s.turns + 1)

/-- From `s` to `t` the `key_in` port gave `v`: the next value delivered to it, or the free value when none was
(60_exceptions.md R224; log 5). -/
def KeyDelivered (v : KeySample) (s t : State) : Prop :=
  (∃ rest, s.keyIn = v :: rest ∧ t.keyIn = rest ∧ t.draws = s.draws) ∨
  (s.keyIn = [] ∧ v = Config.freeKey s.draws ∧ t.keyIn = [] ∧ t.draws = s.draws + 1)

/-- From `s` to `t` the `rand_in` port gave `v`: the next value delivered to it, or the free value when none was
(42_load_imm.md R124; log 6). -/
def ByteDelivered (v : Byte) (s t : State) : Prop :=
  (∃ rest, s.randIn = v :: rest ∧ t.randIn = rest ∧ t.draws = s.draws) ∨
  (s.randIn = [] ∧ v = Config.freeByte s.draws ∧ t.randIn = [] ∧ t.draws = s.draws + 1)

/-- From `s` to `t` the sample `v` was applied to the input state (60_exceptions.md R225). -/
def SampleApplied : KeySample → State → State → Prop
  | .exit, s, t => t.exit = true ∧ t.lastKey = s.lastKey ∧ ∀ k, t.key k = s.key k
  | .none, s, t => t.exit = s.exit ∧ t.lastKey = none ∧
      ∀ k, t.key k = if s.lastKey = some k then false else s.key k
  | .key n, s, t => t.exit = s.exit ∧ t.lastKey = some n ∧
      ∀ k, t.key k =
        if s.lastKey = some n then s.key k
        else if k = n then true
        else if s.lastKey = some k then false
        else s.key k

/-- The registers an instruction may write: its destinations, and register 15 for the six that write it as a flag
(10_state.md R14). -/
def mayWriteReg (i : Instr) (r : RegIdx) : Prop :=
  match i with
  | .ldVxKk x _ | .addVxKk x _ | .ldVxVy x _ | .orVxVy x _ | .andVxVy x _ | .xorVxVy x _ | .rndVxKk x _
  | .ldVxDt x | .ldVxK x => r = x
  | .addVxVy x _ | .subVxVy x _ | .shrVxVy x _ | .subnVxVy x _ | .shlVxVy x _ => r = x ∨ r = 15
  | .drw _ _ _ => r = 15
  | .ldVxMem x => r ≤ x
  | _ => False

/-! ## Encodings -/

/-- "A word `w` is the instruction when `w and mask = match`" (30_encoding.md R80), its operands read by `operands`. -/
def Encodes (mask bits : Word) (operands : Word → Instr) : Prop :=
  ∀ w : Word, w &&& mask = bits → decode w = .ok (operands w)

end Sys2Proof
end

