-- ==== Sys2Proof/Certificates/Slice0/Obligations.lean ====
section
/-! DEFINITION. The statements about the Rust8 core, each a rule of the spec or derived from rules. "D n" is a decision of
spec/92_eei_decisions.md, "log n" a row of notes/assumptions. -/

open Sys2Proof Sys2Proof.Machine

/-! ## Encoding -/

/-- Decoding an encoded instruction gives it back, with every operand at every value (30_encoding.md R72, R73, R80). -/
def Obligations.DecodingAnEncodedInstructionGivesItBack : Prop :=
  ∀ (i : Instr) (rest : List Byte),
    decode (encode i) = .ok i ∧ decodeBytes (encodeBytes i ++ rest) = .ok (i, rest)

/-- Encoding a decoded word gives the word back but for the digits its instruction ignores, which are encoded as 0
(30_encoding.md R73, R75, R79, R83). -/
def Obligations.EncodingADecodedWordGivesItBack : Prop :=
  ∀ (w : Word) (i : Instr), decode w = .ok i → encode i = w &&& careMask i

/-- The words that do not decode are those of R81's table of illegal words. -/
def Obligations.ExactlyTheIllegalWordsDoNotDecode : Prop :=
  ∀ w : Word, WellFormed.illegalWord w = true ↔ ∀ i : Instr, decode w ≠ .ok i

/-- R80: 34 rows, pairwise disjoint; a word that matches a row decodes to that row's instruction, and a word that matches
none does not decode. -/
def Obligations.DecodingFollowsTheOpcodeMap : Prop :=
  opcodeMap.length = 34 ∧
  opcodeMap.Pairwise (fun a b => ∀ w : Word, w &&& a.mask = a.bits → w &&& b.mask ≠ b.bits) ∧
  (∀ row ∈ opcodeMap, ∀ w : Word, w &&& row.mask = row.bits → decode w = .ok (row.read w)) ∧
  ∀ w : Word, (∀ row ∈ opcodeMap, w &&& row.mask ≠ row.bits) → ∃ e, decode w = .error e

/-- The encodings that the source itself shows (95_test_vectors.md E8) decode to the instructions it names. -/
def Obligations.TheWordsOfTheSourceDecode : Prop :=
  decodeBytes [0x60, 0x00] = .ok (.ldVxKk 0 0x00, []) ∧ decodeBytes [0xF0, 0x29] = .ok (.ldFVx 0, []) ∧
  decodeBytes [0xD0, 0x01] = .ok (.drw 0 0 1, []) ∧ decodeBytes [0x22, 0x04] = .ok (.call 0x204, []) ∧
  decodeBytes [0x60, 0x03] = .ok (.ldVxKk 0 0x03, []) ∧ decodeBytes [0x00, 0xEE] = .ok (.ret, []) ∧
  decodeBytes [0x00, 0xE0] = .ok (.cls, [])

/-! ## Steps -/

/-- A CPU step runs the instruction that the two bytes at `pc` decode to, high byte first; around `exec` a step only takes
the CPU's turn (60_exceptions.md R247, 20_memory.md R44; how a turn is held is the model's, log 4). -/
def Obligations.AStepRunsTheDecodedInstruction : Prop :=
  ∀ (s : State) (i : Instr), Live s → s.turn = .cpu →
    s.pc.toNat + 2 ≤ Params.memSize →
    decode (s.mem.read s.pc.toNat ++ s.mem.read (s.pc.toNat + 1)) = .ok i →
    step s = exec i s.popTurn ∧ TurnTaken s s.popTurn ∧ UnchangedExcept (fun p => p.ofTurn) s s.popTurn

/-- A fetch that does not lie in memory raises `BoundsFault(MEM, pc)`, records no word and changes nothing else
(20_memory.md R44, 60_exceptions.md R202 to R204). -/
def Obligations.AFetchOutsideMemoryFaults : Prop :=
  ∀ s : State, Live s → s.turn = .cpu → Params.memSize < s.pc.toNat + 2 →
    ∃ t, step s = .next t ∧ t.fault = some ⟨.bounds, .mem, s.pc, none, s.pc.toNat⟩ ∧
      TurnTaken s t ∧ UnchangedExcept (fun p => p = .fault ∨ p.ofTurn) s t

/-- An illegal word raises `DecodeFault`, which records the word and its address, and changes nothing else
(60_exceptions.md R201, R203, R204). -/
def Obligations.AnIllegalWordFaults : Prop :=
  ∀ (s : State) (w : Word), Live s → s.turn = .cpu →
    s.pc.toNat + 2 ≤ Params.memSize → w = s.mem.read s.pc.toNat ++ s.mem.read (s.pc.toNat + 1) →
    WellFormed.illegalWord w = true →
    ∃ t, step s = .next t ∧ t.fault = some ⟨.decode, .illegal, s.pc, some w, w.toNat⟩ ∧
      TurnTaken s t ∧ UnchangedExcept (fun p => p = .fault ∨ p.ofTurn) s t

/-- Once `FAULT` is not `none`, and once `EXIT` is 1, no agent steps: whatever the schedule says, the step stops under
the name of the end (60_exceptions.md R205, R206, R210; the stop's form is the model's, log 2). -/
def Obligations.AnEndedMachineTakesNoStep : Prop :=
  ∀ s : State, (∀ r, s.fault = some r → step s = .fault (.halted r)) ∧ (CleanEnd s → step s = .fault .exited)

/-- R240, R12, R246: an agent steps exactly in a live machine, and which one is not fixed: every finite order of the four
agents is a run, as long as the machine lives; a turn that nothing has fixed is a free value (the scheduler is the spec's
decision D32; how it is held is the model's, log 4). -/
def Obligations.AnyAgentMayStepExactlyWhenLive : Prop :=
  (∀ s : State, (∃ t, step s = .next t) ↔ Live s) ∧
  (∀ (s : State) (agents : List Agent), ∃ taken t, taken <+: agents ∧
    Run (fun _ => True) (s.setSchedule agents) taken t ∧ (taken = agents ∨ ¬ Live t)) ∧
  ∀ s : State, s.schedule = [] → s.turn = Config.freeAgent s.turns

/-- R221: one tick takes one from each counter that is not 0, and touches nothing else. -/
def Obligations.ATimerTickDecaysBothCounters : Prop :=
  ∀ s : State, Live s → s.turn = .timer →
    ∃ t, step s = .next t ∧ t.dt.toNat = s.dt.toNat - 1 ∧ t.st.toNat = s.st.toNat - 1 ∧ TurnTaken s t ∧
      UnchangedExcept (fun p => p = .dt ∨ p = .st ∨ p.ofTurn) s t

/-- R225, R226: the sampler's step is one sample, applied to the input state, and nothing else (what the
port may deliver and how it is applied are the spec's decisions D21 to D23). -/
def Obligations.ASamplerStepAppliesOneSample : Prop :=
  ∀ s : State, Live s → s.turn = .sampler →
    ∃ v t, step s = .next t ∧ KeyDelivered v s t ∧ SampleApplied v s t ∧ TurnTaken s t ∧
      UnchangedExcept (fun p => p.ofSample ∨ p.ofTurn) s t

/-- R232: the refresh presents all rows and all key flags of the same moment and changes no state of the core. -/
def Obligations.ARefreshPresentsOneSnapshot : Prop :=
  ∀ s : State, Live s → s.turn = .refresh →
    ∃ t, step s = .next t ∧ t.frameOut = some ⟨s.fb, s.keys⟩ ∧ TurnTaken s t ∧
      UnchangedExcept (fun p => p = .frameOut ∨ p.ofTurn) s t

/-- R204: a step that raises a fault writes `FAULT` and nothing else, and takes nothing from a port; the record names the
instruction (the spec's decisions D25, D26; that the recorded word is the one at `pc` is log 3). -/
def Obligations.AFaultingStepChangesNothingElse : Prop :=
  ∀ (s t : State) (r : FaultRecord), step s = .next t → t.fault = some r →
    r.pc = s.pc ∧ r.cls = r.cause.cls ∧ r.word = s.fetch? ∧
      TurnTaken s t ∧ UnchangedExcept (fun p => p = .fault ∨ p.ofTurn) s t

/-! ## Invariants -/

/-- The invariant holds after reset. -/
def Obligations.TheInvariantHoldsAtReset : Prop := Inv State.reset

/-- Every step of every agent keeps the invariant: memory in its canonical form, the keys as the latch says (R227), the
stack holding addresses of words in memory (R18), a fault record precise (R203; its form is the spec's decision D25, its word,
read at `pc`, is log 3), one end at most (R210). -/
def Obligations.EveryStepKeepsTheInvariant : Prop :=
  ∀ s t : State, Inv s → step s = .next t → Inv t

/-- The `HOST` step establishes the invariant, whatever the image, refused ones included (R260, R264). -/
def Obligations.BootEstablishesTheInvariant : Prop := ∀ image : List Byte, Inv (State.boot image)

/-- Two memories in canonical form that read the same at every address are the same data (the model's representation,
log 14). -/
def Obligations.MemoriesThatReadTheSameAreEqual : Prop :=
  ∀ m n : Memory, m.wf = true → n.wf = true → (∀ a, m.read a = n.read a) → m = n

/-! ## Rules of the whole machine -/

/-- R40, R20: only `LD B, Vx` and `LD [I], Vx` change memory, and only at their own addresses. -/
def Obligations.OnlyTheTwoStoresChangeMemory : Prop :=
  ∀ (s t : State) (a : Nat), step s = .next t → t.mem.read a ≠ s.mem.read a →
    ∃ x, (AboutToExecute s (.ldBVx x) ∧ s.I.toNat ≤ a ∧ a < s.I.toNat + 3) ∨
      (AboutToExecute s (.ldMemVx x) ∧ s.I.toNat ≤ a ∧ a ≤ s.I.toNat + x.val)

/-- R16: how each instruction moves `pc`; a step that faults does not move it. -/
def Obligations.ThePcAdvanceRule : Prop :=
  ∀ (i : Instr) (s t : State), s.fault = none → exec i s = .next t →
    (t.fault ≠ none → t.pc = s.pc) ∧
    (t.fault = none →
      match i with
      | .jp nnn | .call nnn => t.pc.toNat = nnn.toNat
      | .jpV0 nnn => t.pc.toNat = ((s.reg 0).toNat + nnn.toNat) % 65536
      | .ret => ∃ k : Fin Config.stackDepth, s.sp.val = k.val + 1 ∧ t.pc = s.stack[k.val] + 2
      | .seVxKk x kk => t.pc = s.pc + (if s.reg x = kk then 4 else 2)
      | .sneVxKk x kk => t.pc = s.pc + (if s.reg x = kk then 2 else 4)
      | .seVxVy x y => t.pc = s.pc + (if s.reg x = s.reg y then 4 else 2)
      | .sneVxVy x y => t.pc = s.pc + (if s.reg x = s.reg y then 2 else 4)
      | .skp x => ∃ k : KeyIdx, (s.reg x).toNat = k.val ∧ t.pc = s.pc + (if t.key k = true then 4 else 2)
      | .sknp x => ∃ k : KeyIdx, (s.reg x).toNat = k.val ∧ t.pc = s.pc + (if t.key k = true then 2 else 4)
      | .ldVxK _ => ∃ v, KeyDelivered v s t ∧ t.pc = (match v with | .key _ => s.pc + 2 | _ => s.pc)
      | _ => t.pc = s.pc + 2)

/-- R13, R14: an instruction changes no register but its destinations, and register 15 only as a destination or as one
of the six flag writers; no other agent changes any. -/
def Obligations.OnlyDestinationRegistersChange : Prop :=
  ∀ (s t : State) (r : RegIdx), step s = .next t → t.reg r ≠ s.reg r →
    ∃ i, AboutToExecute s i ∧ mayWriteReg i r

/-- R18: only `CALL` and `RET` change the stack. -/
def Obligations.OnlyCallAndReturnChangeTheStack : Prop :=
  ∀ s t : State, step s = .next t → ¬ Part.same s t .stack →
    (∃ nnn, AboutToExecute s (.call nnn)) ∨ AboutToExecute s .ret

/-- R21: only `CLS` and `DRW` change a pixel. -/
def Obligations.OnlyClearAndDrawChangePixels : Prop :=
  ∀ (s t : State) (r : Fin 32) (c : Fin 64), step s = .next t → pixel t.fb r c ≠ pixel s.fb r c →
    AboutToExecute s .cls ∨ ∃ x y n, AboutToExecute s (.drw x y n)

/-- R22, R23: the key flags, the latch and `EXIT` change only by a sample: in the sampler's step, or in `SKP`, `SKNP` or
`LD Vx, K`. -/
def Obligations.OnlySamplesChangeTheInputState : Prop :=
  ∀ (s t : State) (p : Part), step s = .next t → (p = .lastKey ∨ p = .exit ∨ ∃ k, p = .key k) → ¬ Part.same s t p →
    s.turn = .sampler ∨ ∃ x, AboutToExecute s (.skp x) ∨ AboutToExecute s (.sknp x) ∨ AboutToExecute s (.ldVxK x)

/-- R271: "`DT` and `ST` never increase except by its own writes", and over a run in which a counter is not written it
falls by one for each tick until it is 0 (the ticks as steps of their own are the spec's decision D6). -/
def Obligations.TimersFollowTheirLoadsAndTicks : Prop :=
  (∀ s t : State, step s = .next t →
    (t.dt.toNat ≤ s.dt.toNat ∨ ∃ x, AboutToExecute s (.ldDtVx x) ∧ t.dt = s.reg x) ∧
    (t.st.toNat ≤ s.st.toNat ∨ ∃ x, AboutToExecute s (.ldStVx x) ∧ t.st = s.reg x)) ∧
  (∀ (s t : State) (agents : List Agent), Run (fun u => ∀ x, ¬ AboutToExecute u (.ldDtVx x)) s agents t →
    t.dt.toNat = s.dt.toNat - agents.count .timer) ∧
  ∀ (s t : State) (agents : List Agent), Run (fun u => ∀ x, ¬ AboutToExecute u (.ldStVx x)) s agents t →
    t.st.toNat = s.st.toNat - agents.count .timer

/-- R17: the five instructions that write `I`. -/
def Obligations.OnlyTheFiveIndexWritersChangeI : Prop :=
  ∀ s t : State, step s = .next t → t.I ≠ s.I →
    (∃ nnn, AboutToExecute s (.ldINnn nnn)) ∨
    ∃ x, AboutToExecute s (.addIVx x) ∨ AboutToExecute s (.ldFVx x) ∨ AboutToExecute s (.ldMemVx x) ∨
      AboutToExecute s (.ldVxMem x)

/-! ## Properties of several instructions -/

/-- R101, R103 (95_test_vectors.md E3): a call followed at once by a return resumes at the call's address plus 2, with
the stack as it was, and nothing but `pc` has changed. -/
def Obligations.AReturnResumesAfterItsCall : Prop :=
  ∀ (s : State) (nnn : BitVec 12), s.sp.val < Config.stackDepth →
    ∃ t u, exec (.call nnn) s = .next t ∧ exec .ret t = .next u ∧ u.pc = s.pc + 2 ∧
      UnchangedExcept (fun p => p = .pc) s u

/-- R155: a sprite drawn twice at one place leaves the frame as it was; where its region was blank the first draw reports
no collision and the second reports one exactly when the sprite has a set bit. The coordinates are read from registers
other than 15, which the first draw overwrites. Wrapping columns are the spec's decisions D14, D15 (log 15), the
order of X and Y is D11 (log 16), no check when n is 0 is D35. -/
def Obligations.DrawingTwiceRestoresTheFrame : Prop :=
  ∀ (s : State) (x y : RegIdx) (n : Fin 16), x ≠ 15 → y ≠ 15 →
    (n.val = 0 ∨ s.I.toNat + n.val ≤ Params.memSize) →
    ∃ t u, exec (.drw x y n) s = .next t ∧ exec (.drw x y n) t = .next u ∧ u.fb = s.fb ∧
      ((∀ r c, SpriteSets s (s.reg y).toNat (s.reg x).toNat n.val r c → pixel s.fb r c = false) →
        t.reg 15 = 0 ∧
        ((∃ r c, SpriteSets s (s.reg y).toNat (s.reg x).toNat n.val r c) → u.reg 15 = 1) ∧
        ((∀ r c, ¬ SpriteSets s (s.reg y).toNat (s.reg x).toNat n.val r c) → u.reg 15 = 0))

/-- R176, R177 (95_test_vectors.md E4): registers dumped, changed in any way, and loaded again from the same `I` hold the
dumped values; the registers above X keep the changed ones; both times `I` ends 8 higher (it wraps by D17). -/
def Obligations.ALoadRestoresDumpedRegisters : Prop :=
  ∀ (s : State) (x : RegIdx) (changed : Vector Byte 16), s.I.toNat + x.val + 1 ≤ Params.memSize →
    ∃ t v, exec (.ldMemVx x) s = .next t ∧ t.I = s.I + 8 ∧
      exec (.ldVxMem x) { t with x := changed, I := s.I } = .next v ∧ v.I = s.I + 8 ∧
      ∀ r : RegIdx, v.reg r = if r ≤ x then s.reg r else changed[r.val]

/-- R59: bytes dumped over the next instruction are the word that the next fetch reads. -/
def Obligations.AStoreIsSeenByTheNextFetch : Prop :=
  ∀ (s : State) (x k l : RegIdx), s.I.toNat + x.val + 1 ≤ Params.memSize → l.val = k.val + 1 → l ≤ x →
    (s.pc + 2).toNat = s.I.toNat + k.val →
    ∃ t, exec (.ldMemVx x) s = .next t ∧ t.fetch? = some (s.reg k ++ s.reg l)

/-! ## Families 0, 1, 2 and B -/

/-- R100, R152 (that the second digit of the word is ignored is the spec's decision D13, log 16). -/
def Obligations.ClsClearsTheDisplay : Prop :=
  Encodes 0xF0FF 0x00E0 (fun _ => .cls) ∧
  ∀ s : State, ∃ t, exec .cls s = .next t ∧ (∀ r c, pixel t.fb r c = false) ∧ t.pc = s.pc + 2 ∧
    UnchangedExcept (fun p => p = .pc ∨ ∃ r c, p = .pixel r c) s t

/-- R101: the newest entry is taken and `pc` is that entry plus 2; an empty stack faults (the spec's decision D3; that the
second digit of the word is ignored is D13, log 16; the record's form, R203, R204, is D25, and its word, read at `pc`, is
log 3). -/
def Obligations.RetPopsAndAddsTwo : Prop :=
  Encodes 0xF0FF 0x00EE (fun _ => .ret) ∧
  ∀ s : State,
    (∀ k : Fin Config.stackDepth, s.sp.val = k.val + 1 →
      ∃ t, exec .ret s = .next t ∧ t.pc = s.stack[k.val] + 2 ∧ t.sp.val = k.val ∧
        (∀ j : Fin Config.stackDepth, j.val < k.val → t.stack[j.val] = s.stack[j.val]) ∧
        UnchangedExcept (fun p => p = .pc ∨ p = .stack) s t) ∧
    (s.sp.val = 0 → FaultsWith .ret s .stackUnderflow 0)

/-- R102. -/
def Obligations.JpReplacesPc : Prop :=
  Encodes 0xF000 0x1000 (fun w => .jp (Field.nnn w)) ∧
  ∀ (nnn : BitVec 12) (s : State), ∃ t, exec (.jp nnn) s = .next t ∧ t.pc.toNat = nnn.toNat ∧
    UnchangedExcept (fun p => p = .pc) s t

/-- R103: the pushed value is the call's own address; a full stack faults (the spec's decisions D2, D3;
log 8; the record's form, R203, R204, is D25, and its word, read at `pc`, is log 3). -/
def Obligations.CallPushesItsOwnAddress : Prop :=
  Encodes 0xF000 0x2000 (fun w => .call (Field.nnn w)) ∧
  ∀ (nnn : BitVec 12) (s : State),
    (∀ k : Fin Config.stackDepth, s.sp.val = k.val →
      ∃ t, exec (.call nnn) s = .next t ∧ t.stack[k.val] = s.pc ∧ t.sp.val = k.val + 1 ∧ t.pc.toNat = nnn.toNat ∧
        (∀ j : Fin Config.stackDepth, j.val < k.val → t.stack[j.val] = s.stack[j.val]) ∧
        UnchangedExcept (fun p => p = .pc ∨ p = .stack) s t) ∧
    (s.sp.val = Config.stackDepth → FaultsWith (.call nnn) s .stackOverflow s.sp.val)

/-- R104: the sum of `x[0]` and the 12-bit immediate, not reduced to 12 bits (the spec's decision
D44). -/
def Obligations.JpV0AddsRegisterZero : Prop :=
  Encodes 0xF000 0xB000 (fun w => .jpV0 (Field.nnn w)) ∧
  ∀ (nnn : BitVec 12) (s : State), ∃ t, exec (.jpV0 nnn) s = .next t ∧
    t.pc.toNat = ((s.reg 0).toNat + nnn.toNat) % 65536 ∧ UnchangedExcept (fun p => p = .pc) s t

/-! ## Families 3, 4, 5 and 9 -/

/-- R110, R111: `pc` advances by 4 when the condition holds, by 2 when it does not, and nothing else changes. -/
def Obligations.TheTwoImmediateSkips : Prop :=
  Encodes 0xF000 0x3000 (fun w => .seVxKk (Field.x w) (Field.kk w)) ∧
  Encodes 0xF000 0x4000 (fun w => .sneVxKk (Field.x w) (Field.kk w)) ∧
  ∀ (x : RegIdx) (kk : Byte) (s : State),
    (∃ t, exec (.seVxKk x kk) s = .next t ∧ t.pc = s.pc + (if s.reg x = kk then 4 else 2) ∧
      UnchangedExcept (fun p => p = .pc) s t) ∧
    (∃ t, exec (.sneVxKk x kk) s = .next t ∧ t.pc = s.pc + (if s.reg x ≠ kk then 4 else 2) ∧
      UnchangedExcept (fun p => p = .pc) s t)

/-- R112, R113: the same for two registers (that the low nibble is ignored and that X stands above Y are the spec's
decisions D12, D11; log 16). -/
def Obligations.TheTwoRegisterSkips : Prop :=
  Encodes 0xF000 0x5000 (fun w => .seVxVy (Field.x w) (Field.y w)) ∧
  Encodes 0xF000 0x9000 (fun w => .sneVxVy (Field.x w) (Field.y w)) ∧
  ∀ (x y : RegIdx) (s : State),
    (∃ t, exec (.seVxVy x y) s = .next t ∧ t.pc = s.pc + (if s.reg x = s.reg y then 4 else 2) ∧
      UnchangedExcept (fun p => p = .pc) s t) ∧
    (∃ t, exec (.sneVxVy x y) s = .next t ∧ t.pc = s.pc + (if s.reg x ≠ s.reg y then 4 else 2) ∧
      UnchangedExcept (fun p => p = .pc) s t)

/-! ## Families 6, 7, A and C -/

/-- R120. -/
def Obligations.LdVxKkLoadsTheImmediate : Prop :=
  Encodes 0xF000 0x6000 (fun w => .ldVxKk (Field.x w) (Field.kk w)) ∧
  ∀ (x : RegIdx) (kk : Byte) (s : State), ∃ t, exec (.ldVxKk x kk) s = .next t ∧ t.reg x = kk ∧ t.pc = s.pc + 2 ∧
    UnchangedExcept (fun p => p = .pc ∨ p = .reg x) s t

/-- R121: the sum wraps, and register 15 is written only as the destination. -/
def Obligations.AddVxKkWrapsWithoutAFlag : Prop :=
  Encodes 0xF000 0x7000 (fun w => .addVxKk (Field.x w) (Field.kk w)) ∧
  ∀ (x : RegIdx) (kk : Byte) (s : State), ∃ t, exec (.addVxKk x kk) s = .next t ∧
    (t.reg x).toNat = ((s.reg x).toNat + kk.toNat) % 256 ∧ t.pc = s.pc + 2 ∧
    UnchangedExcept (fun p => p = .pc ∨ p = .reg x) s t

/-- R122: the high four bits of `I` become 0. -/
def Obligations.LdILoadsTheAddress : Prop :=
  Encodes 0xF000 0xA000 (fun w => .ldINnn (Field.nnn w)) ∧
  ∀ (nnn : BitVec 12) (s : State), ∃ t, exec (.ldINnn nnn) s = .next t ∧ t.I.toNat = nnn.toNat ∧ t.pc = s.pc + 2 ∧
    UnchangedExcept (fun p => p = .pc ∨ p = .index) s t

/-- R123, R124: the immediate and one fresh byte of the port, whatever the byte is (a byte that nothing fixed is a free
value, log 6). -/
def Obligations.RndMasksOneFreshByte : Prop :=
  Encodes 0xF000 0xC000 (fun w => .rndVxKk (Field.x w) (Field.kk w)) ∧
  ∀ (x : RegIdx) (kk : Byte) (s : State), ∃ r t, exec (.rndVxKk x kk) s = .next t ∧ ByteDelivered r s t ∧
    t.reg x = kk &&& r ∧ t.pc = s.pc + 2 ∧
    UnchangedExcept (fun p => p = .pc ∨ p = .reg x ∨ p.ofRand) s t

/-! ## Family 8 -/

/-- R131 to R134: the four operations without a flag. Register 15 is written only as the destination (the spec's decision
D10; the nibbles and the order of X and Y are D7 and D11, log 16). -/
def Obligations.TheFourPlainAluOperations : Prop :=
  Encodes 0xF00F 0x8000 (fun w => .ldVxVy (Field.x w) (Field.y w)) ∧
  Encodes 0xF00F 0x8001 (fun w => .orVxVy (Field.x w) (Field.y w)) ∧
  Encodes 0xF00F 0x8002 (fun w => .andVxVy (Field.x w) (Field.y w)) ∧
  Encodes 0xF00F 0x8003 (fun w => .xorVxVy (Field.x w) (Field.y w)) ∧
  ∀ (x y : RegIdx) (s : State),
    (∃ t, exec (.ldVxVy x y) s = .next t ∧ t.reg x = s.reg y ∧ t.pc = s.pc + 2 ∧
      UnchangedExcept (fun p => p = .pc ∨ p = .reg x) s t) ∧
    (∃ t, exec (.orVxVy x y) s = .next t ∧ t.reg x = s.reg x ||| s.reg y ∧ t.pc = s.pc + 2 ∧
      UnchangedExcept (fun p => p = .pc ∨ p = .reg x) s t) ∧
    (∃ t, exec (.andVxVy x y) s = .next t ∧ t.reg x = s.reg x &&& s.reg y ∧ t.pc = s.pc + 2 ∧
      UnchangedExcept (fun p => p = .pc ∨ p = .reg x) s t) ∧
    (∃ t, exec (.xorVxVy x y) s = .next t ∧ t.reg x = s.reg x ^^^ s.reg y ∧ t.pc = s.pc + 2 ∧
      UnchangedExcept (fun p => p = .pc ∨ p = .reg x) s t)

/-- R130, R135: the sum mod 256, then the carry into register 15, which wins when X is 15 (the nibble and the order
of X and Y are the spec's decisions D7, D11, log 16). -/
def Obligations.AddVxVySetsTheCarry : Prop :=
  Encodes 0xF00F 0x8004 (fun w => .addVxVy (Field.x w) (Field.y w)) ∧
  ∀ (x y : RegIdx) (s : State), ∃ t, exec (.addVxVy x y) s = .next t ∧
    (x ≠ 15 → (t.reg x).toNat = ((s.reg x).toNat + (s.reg y).toNat) % 256) ∧
    t.reg 15 = (if 255 < (s.reg x).toNat + (s.reg y).toNat then 1 else 0) ∧ t.pc = s.pc + 2 ∧
    UnchangedExcept (fun p => p = .pc ∨ p = .reg x ∨ p = .reg 15) s t

/-- R136, R138: the two subtractions mod 256, then the borrow into register 15, 1 exactly when a borrow occurred (the
sense is the spec's decision D9, log 10; the nibbles and the order of X and Y are D7, D11, log 16). -/
def Obligations.TheTwoSubtractionsSetTheBorrow : Prop :=
  Encodes 0xF00F 0x8005 (fun w => .subVxVy (Field.x w) (Field.y w)) ∧
  Encodes 0xF00F 0x8007 (fun w => .subnVxVy (Field.x w) (Field.y w)) ∧
  ∀ (x y : RegIdx) (s : State),
    (∃ t, exec (.subVxVy x y) s = .next t ∧
      (x ≠ 15 → ((t.reg x).toNat : Int) = ((s.reg x).toNat - (s.reg y).toNat : Int) % 256) ∧
      t.reg 15 = (if (s.reg x).toNat < (s.reg y).toNat then 1 else 0) ∧ t.pc = s.pc + 2 ∧
      UnchangedExcept (fun p => p = .pc ∨ p = .reg x ∨ p = .reg 15) s t) ∧
    (∃ t, exec (.subnVxVy x y) s = .next t ∧
      (x ≠ 15 → ((t.reg x).toNat : Int) = ((s.reg y).toNat - (s.reg x).toNat : Int) % 256) ∧
      t.reg 15 = (if (s.reg y).toNat < (s.reg x).toNat then 1 else 0) ∧ t.pc = s.pc + 2 ∧
      UnchangedExcept (fun p => p = .pc ∨ p = .reg x ∨ p = .reg 15) s t)

/-- R137, R139: the two shifts of `x[X]` by one (the source register is the spec's decision D8, log 11), then the bit
shifted out into register 15 (the nibbles and the order of X and Y are D7, D11, log 16). -/
def Obligations.TheTwoShiftsKeepTheBitShiftedOut : Prop :=
  Encodes 0xF00F 0x8006 (fun w => .shrVxVy (Field.x w) (Field.y w)) ∧
  Encodes 0xF00F 0x800E (fun w => .shlVxVy (Field.x w) (Field.y w)) ∧
  ∀ (x y : RegIdx) (s : State),
    (∃ t, exec (.shrVxVy x y) s = .next t ∧ (x ≠ 15 → t.reg x = s.reg x >>> 1) ∧
      t.reg 15 = (if (s.reg x).getLsbD 0 = true then 1 else 0) ∧ t.pc = s.pc + 2 ∧
      UnchangedExcept (fun p => p = .pc ∨ p = .reg x ∨ p = .reg 15) s t) ∧
    (∃ t, exec (.shlVxVy x y) s = .next t ∧ (x ≠ 15 → t.reg x = s.reg x <<< 1) ∧
      t.reg 15 = (if (s.reg x).getLsbD 7 = true then 1 else 0) ∧ t.pc = s.pc + 2 ∧
      UnchangedExcept (fun p => p = .pc ∨ p = .reg x ∨ p = .reg 15) s t)

/-! ## Family D -/

/-- R150, R151, R155: exactly the pixels under a sprite bit of 1 are toggled, register 15 says whether one of them went
from 1 to 0, and a sprite that does not lie in memory faults (wrapping columns are the spec's decisions D14, D15,
log 15; the order of X and Y is D11, log 16; no check when n is 0 is D35; the record's form, R203, R204, is D25, and its
word, read at `pc`, is log 3). -/
def Obligations.DrwTogglesExactlyTheSpritePixels : Prop :=
  Encodes 0xF000 0xD000 (fun w => .drw (Field.x w) (Field.y w) (Field.n w)) ∧
  ∀ (x y : RegIdx) (n : Fin 16) (s : State),
    ((n.val = 0 ∨ s.I.toNat + n.val ≤ Params.memSize) →
      ∃ t, exec (.drw x y n) s = .next t ∧
        (∀ r c, pixel t.fb r c ≠ pixel s.fb r c ↔ SpriteSets s (s.reg y).toNat (s.reg x).toNat n.val r c) ∧
        ((∃ r c, pixel s.fb r c = true ∧ pixel t.fb r c = false) → t.reg 15 = 1) ∧
        ((∀ r c, ¬ (pixel s.fb r c = true ∧ pixel t.fb r c = false)) → t.reg 15 = 0) ∧ t.pc = s.pc + 2 ∧
        UnchangedExcept (fun p => p = .pc ∨ p = .reg 15 ∨ ∃ r c, p = .pixel r c) s t) ∧
    (n.val ≠ 0 → Params.memSize < s.I.toNat + n.val → FaultsWith (.drw x y n) s .mem s.I.toNat)

/-! ## Family E and FX0A -/

/-- R160, R161: the register's whole value must name a key, or the step faults and takes no sample (D26); then a sample
is applied (D21 to D23) and its outcome decides the skip (the
record's form, R203, R204, is D25, and its word, read at `pc`, is log 3). -/
def Obligations.TheTwoKeySkipsSampleFirst : Prop :=
  Encodes 0xF0FF 0xE09E (fun w => .skp (Field.x w)) ∧ Encodes 0xF0FF 0xE0A1 (fun w => .sknp (Field.x w)) ∧
  ∀ (x : RegIdx) (s : State),
    (∀ k : KeyIdx, (s.reg x).toNat = k.val →
      (∃ v t, exec (.skp x) s = .next t ∧ KeyDelivered v s t ∧ SampleApplied v s t ∧
        t.pc = s.pc + (if t.key k = true then 4 else 2) ∧ UnchangedExcept (fun p => p = .pc ∨ p.ofSample) s t) ∧
      (∃ v t, exec (.sknp x) s = .next t ∧ KeyDelivered v s t ∧ SampleApplied v s t ∧
        t.pc = s.pc + (if t.key k = false then 4 else 2) ∧ UnchangedExcept (fun p => p = .pc ∨ p.ofSample) s t)) ∧
    (15 < (s.reg x).toNat →
      FaultsWith (.skp x) s .key (s.reg x).toNat ∧ FaultsWith (.sknp x) s .key (s.reg x).toNat)

/-- R162: one attempt is one sample; a key completes the wait and its number is stored, anything else leaves `pc` on the
instruction (D24; the sample, D21 to D23). The first clause is the completion, where the port is about to deliver a key. -/
def Obligations.LdVxKWaitsForAKey : Prop :=
  Encodes 0xF0FF 0xF00A (fun w => .ldVxK (Field.x w)) ∧
  ∀ (x : RegIdx) (s : State),
    (∀ k rest, s.keyIn = .key k :: rest →
      ∃ t, exec (.ldVxK x) s = .next t ∧ (t.reg x).toNat = k.val ∧ t.pc = s.pc + 2 ∧ t.keyIn = rest ∧
        SampleApplied (.key k) s t ∧ UnchangedExcept (fun p => p = .pc ∨ p = .reg x ∨ p.ofSample) s t) ∧
    ∃ v t, exec (.ldVxK x) s = .next t ∧ KeyDelivered v s t ∧ SampleApplied v s t ∧
      (∀ k, v = .key k → (t.reg x).toNat = k.val ∧ t.pc = s.pc + 2) ∧
      ((∀ k, v ≠ .key k) → t.reg x = s.reg x ∧ t.pc = s.pc) ∧
      UnchangedExcept (fun p => p = .pc ∨ p = .reg x ∨ p.ofSample) s t

/-! ## Family F -/

/-- R170, R171: the delay counter is read into a register and written from one. -/
def Obligations.TheTwoDelayTransfers : Prop :=
  Encodes 0xF0FF 0xF007 (fun w => .ldVxDt (Field.x w)) ∧ Encodes 0xF0FF 0xF015 (fun w => .ldDtVx (Field.x w)) ∧
  ∀ (x : RegIdx) (s : State),
    (∃ t, exec (.ldVxDt x) s = .next t ∧ t.reg x = s.dt ∧ t.pc = s.pc + 2 ∧
      UnchangedExcept (fun p => p = .pc ∨ p = .reg x) s t) ∧
    (∃ t, exec (.ldDtVx x) s = .next t ∧ t.dt = s.reg x ∧ t.pc = s.pc + 2 ∧
      UnchangedExcept (fun p => p = .pc ∨ p = .dt) s t)

/-- R172, R222: the sound counter is written from a register, and `tone_out` follows at once (the port is the spec's
decision D29). -/
def Obligations.LdStVxSetsTheSoundCounter : Prop :=
  Encodes 0xF0FF 0xF018 (fun w => .ldStVx (Field.x w)) ∧
  ∀ (x : RegIdx) (s : State), ∃ t, exec (.ldStVx x) s = .next t ∧ t.st = s.reg x ∧
    (t.toneOut = true ↔ s.reg x ≠ 0) ∧ t.pc = s.pc + 2 ∧ UnchangedExcept (fun p => p = .pc ∨ p = .st) s t

/-- R173: the register is added to `I`, which wraps past 0xFFFF without a flag (the spec's decisions D17, D37; log 11). -/
def Obligations.AddIVxWrapsWithoutAFlag : Prop :=
  Encodes 0xF0FF 0xF01E (fun w => .addIVx (Field.x w)) ∧
  ∀ (x : RegIdx) (s : State), ∃ t, exec (.addIVx x) s = .next t ∧
    t.I.toNat = (s.I.toNat + (s.reg x).toNat) % 65536 ∧ t.pc = s.pc + 2 ∧
    UnchangedExcept (fun p => p = .pc ∨ p = .index) s t

/-- R174: five times the register, which is not masked (the spec's decision D36). -/
def Obligations.LdFVxPointsAtTheGlyph : Prop :=
  Encodes 0xF0FF 0xF029 (fun w => .ldFVx (Field.x w)) ∧
  ∀ (x : RegIdx) (s : State), ∃ t, exec (.ldFVx x) s = .next t ∧ t.I.toNat = (s.reg x).toNat * 5 ∧ t.pc = s.pc + 2 ∧
    UnchangedExcept (fun p => p = .pc ∨ p = .index) s t

/-- R175: the hundreds, tens and ones digits at `I`, `I + 1`, `I + 2`, or a fault when the three bytes do not lie in
memory (the record's form, R203, R204, is D25, and its word, read at `pc`, is log 3). -/
def Obligations.LdBVxStoresTheDecimalDigits : Prop :=
  Encodes 0xF0FF 0xF033 (fun w => .ldBVx (Field.x w)) ∧
  ∀ (x : RegIdx) (s : State),
    (s.I.toNat + 3 ≤ Params.memSize →
      ∃ t, exec (.ldBVx x) s = .next t ∧
        (t.mem.read s.I.toNat).toNat = (s.reg x).toNat / 100 ∧
        (t.mem.read (s.I.toNat + 1)).toNat = (s.reg x).toNat / 10 % 10 ∧
        (t.mem.read (s.I.toNat + 2)).toNat = (s.reg x).toNat % 10 ∧ t.pc = s.pc + 2 ∧
        UnchangedExcept (fun p => p = .pc ∨ ∃ a, p = .memByte a ∧ s.I.toNat ≤ a ∧ a < s.I.toNat + 3) s t) ∧
    (Params.memSize < s.I.toNat + 3 → FaultsWith (.ldBVx x) s .mem s.I.toNat)

/-- R176: X + 1 bytes, register 0 at the lowest address; `I` advances by a fixed 8 (it wraps by D17); a block that does
not lie in memory faults (the record's form, R203, R204, is D25, and its word, read at `pc`, is log 3). -/
def Obligations.LdMemVxDumpsRegistersZeroToX : Prop :=
  Encodes 0xF0FF 0xF055 (fun w => .ldMemVx (Field.x w)) ∧
  ∀ (x : RegIdx) (s : State),
    (s.I.toNat + x.val + 1 ≤ Params.memSize →
      ∃ t, exec (.ldMemVx x) s = .next t ∧
        (∀ r : RegIdx, r ≤ x → t.mem.read (s.I.toNat + r.val) = s.reg r) ∧
        t.I.toNat = (s.I.toNat + 8) % 65536 ∧ t.pc = s.pc + 2 ∧
        UnchangedExcept (fun p => p = .pc ∨ p = .index ∨
          ∃ a, p = .memByte a ∧ s.I.toNat ≤ a ∧ a ≤ s.I.toNat + x.val) s t) ∧
    (Params.memSize < s.I.toNat + x.val + 1 → FaultsWith (.ldMemVx x) s .mem s.I.toNat)

/-- R177: X + 1 bytes, the lowest address to register 0; the registers above X are unchanged; `I` advances by the same
fixed 8 (it wraps by D17); a block that does not lie in memory faults (the record's form, R203,
R204, is D25, and its word, read at `pc`, is log 3). -/
def Obligations.LdVxMemLoadsRegistersZeroToX : Prop :=
  Encodes 0xF0FF 0xF065 (fun w => .ldVxMem (Field.x w)) ∧
  ∀ (x : RegIdx) (s : State),
    (s.I.toNat + x.val + 1 ≤ Params.memSize →
      ∃ t, exec (.ldVxMem x) s = .next t ∧
        (∀ r : RegIdx, r ≤ x → t.reg r = s.mem.read (s.I.toNat + r.val)) ∧
        t.I.toNat = (s.I.toNat + 8) % 65536 ∧ t.pc = s.pc + 2 ∧
        UnchangedExcept (fun p => p = .pc ∨ p = .index ∨ ∃ r : RegIdx, p = .reg r ∧ r ≤ x) s t) ∧
    (Params.memSize < s.I.toNat + x.val + 1 → FaultsWith (.ldVxMem x) s .mem s.I.toNat)

/-! ## Reset, load and ports -/

/-- R260, R263, R264: an image that fits stands at 0x200, the font below it, zero elsewhere, every other piece of state has
its value of R27 (all but `pc`, the font and the image are the spec's decision D4, log 1), and the four agents are enabled:
any of them may step next, and which one does is a free value (log 4). -/
def Obligations.BootLoadsFontAndImage : Prop :=
  ∀ image : List Byte, Config.loadBase + image.length ≤ Params.memSize →
    (∀ k (h : k < image.length), (State.boot image).mem.read (0x200 + k) = image[k]) ∧
    (∀ a, a < 0x200 ∨ 0x200 + image.length ≤ a →
      (State.boot image).mem.read a = if h : a < Params.font.length then Params.font[a] else 0) ∧
    Params.font.take 5 = [0xF0, 0x90, 0x90, 0x90, 0xF0] ∧ Params.font.length = 80 ∧
    (State.boot image).pc = 0x200 ∧ (∀ r, (State.boot image).reg r = 0) ∧ (State.boot image).I = 0 ∧
    (State.boot image).sp.val = 0 ∧ (State.boot image).dt = 0 ∧ (State.boot image).st = 0 ∧
    (∀ r c, pixel (State.boot image).fb r c = false) ∧ (∀ k, (State.boot image).key k = false) ∧
    (State.boot image).lastKey = none ∧ Live (State.boot image) ∧
    (∀ a, ∃ t, step ((State.boot image).setSchedule [a]) = .next t) ∧ (State.boot image).turn = Config.freeAgent 0

/-- R262, R44: whatever steps the other agents take first, the first instruction executed after the load is the image's
first two bytes, high byte first. The schedule is arbitrary; where it is empty the turns are free (log 4). -/
def Obligations.TheFirstInstructionIsTheImagesFirstWord : Prop :=
  ∀ (hi lo : Byte) (rest : List Byte) (i : Instr) (schedule agents : List Agent) (s : State),
    Config.loadBase + (rest.length + 2) ≤ Params.memSize → decode (hi ++ lo) = .ok i →
    Run (fun u => u.turn ≠ .cpu) ((State.boot (hi :: lo :: rest)).setSchedule schedule) agents s →
    Live s → s.turn = .cpu → s.pc = 0x200 ∧ AboutToExecute s i ∧ step s = exec i s.popTurn

/-- R264: an image that does not fit is refused with `BoundsFault(LOAD, L)`, and no agent ever steps (the spec's decision
D38; that the record's `pc` is 0x200 is log 13). -/
def Obligations.BootRefusesAnImageTooLong : Prop :=
  ∀ image : List Byte, Params.memSize < Config.loadBase + image.length →
    (State.boot image).fault = some ⟨.bounds, .load, 0x200, none, image.length⟩ ∧
    ∀ t, step (State.boot image) ≠ .next t

/-- A word placed for the next fetch is the instruction the next step runs, from any state at all (log 12). -/
def Obligations.APlacedWordIsRunNext : Prop :=
  ∀ (s : State) (w : Nat) (i : Instr), decodeTableWord 16 w = some i →
    step (s.withFetchWord 16 w) = exec i (s.withFetchWord 16 w).popTurn

/-- R156: a point query reads one pixel, and is refused outside the display (D40, log 21). -/
def Obligations.APointQueryReadsOnePixel : Prop :=
  ∀ s : State,
    (∀ (r : Fin 32) (c : Fin 64), s.pointQuery r.val c.val = .ok (pixel s.fb r c)) ∧
    ∀ row col, 32 ≤ row ∨ 64 ≤ col → s.pointQuery row col = .error (.pointOutsideDisplay row col)
end

