-- ==== Sys2Proof/Laws/Decode.lean ====
section
/-! SUPPORT. The fields of an encoded word, one lemma per field and format; a word rebuilt from its fields; and what a
match of mask bits says about the fields. -/

namespace Sys2Proof

@[simp] theorem Field.toNibble_ofNibble (b : BitVec 4) : Field.toNibble (Field.ofNibble b) = b := by
  simp [Field.toNibble, Field.ofNibble]

@[simp] theorem Field.ofNibble_toNibble (r : Fin 16) : Field.ofNibble (Field.toNibble r) = r := by
  revert r; decide

/-! ## Bytes of a word -/

theorem wordOfBytes_bytes (w : Word) : wordOfBytes (highByte w) (lowByte w) = w := by
  unfold wordOfBytes highByte lowByte
  ext i hi
  simp only [BitVec.getElem_append, BitVec.getElem_extractLsb']
  split <;> simp [← BitVec.getLsbD_eq_getElem]
  congr 1; omega

theorem highByte_wordOfBytes (hi lo : Byte) : highByte (wordOfBytes hi lo) = hi :=
  BitVec.extractLsb'_append_eq_left ..

theorem lowByte_wordOfBytes (hi lo : Byte) : lowByte (wordOfBytes hi lo) = lo :=
  BitVec.extractLsb'_append_eq_right ..

/-! ## Fields of an encoded word -/

section
variable (f : BitVec 4) (nnn : BitVec 12) (x y n : Fin 16) (kk : Byte)

theorem Field.fam_formatA : Field.fam (formatA f nnn) = f := by
  unfold Field.fam formatA; exact BitVec.extractLsb'_append_eq_left ..

theorem Field.nnn_formatA : Field.nnn (formatA f nnn) = nnn := by
  unfold Field.nnn formatA; exact BitVec.extractLsb'_append_eq_right ..

theorem Field.fam_formatXK : Field.fam (formatXK f x kk) = f := by
  unfold Field.fam formatXK; exact BitVec.extractLsb'_append_eq_left ..

theorem Field.fam_formatXYN : Field.fam (formatXYN f x y n) = f := by
  unfold Field.fam formatXYN; exact BitVec.extractLsb'_append_eq_left ..

theorem Field.x_formatXK : Field.x (formatXK f x kk) = x := by
  have : BitVec.extractLsb' 8 4 (formatXK f x kk) = Field.toNibble x := by
    unfold formatXK
    ext i hi
    simp only [BitVec.getElem_extractLsb', BitVec.getLsbD_append]
    rw [if_pos (by omega), if_neg (by omega)]
    simp [BitVec.getLsbD_eq_getElem, hi]
  simp [Field.x, this]

theorem Field.kk_formatXK : Field.kk (formatXK f x kk) = kk := by
  unfold Field.kk formatXK
  ext i hi
  simp only [BitVec.getElem_extractLsb', BitVec.getLsbD_append]
  rw [if_pos (by omega), if_pos (by omega)]
  simp [BitVec.getLsbD_eq_getElem, hi]

theorem Field.x_formatXYN : Field.x (formatXYN f x y n) = x := by
  have : BitVec.extractLsb' 8 4 (formatXYN f x y n) = Field.toNibble x := by
    unfold formatXYN
    ext i hi
    simp only [BitVec.getElem_extractLsb', BitVec.getLsbD_append]
    rw [if_pos (by omega), if_neg (by omega)]
    simp [BitVec.getLsbD_eq_getElem, hi]
  simp [Field.x, this]

theorem Field.y_formatXYN : Field.y (formatXYN f x y n) = y := by
  have : BitVec.extractLsb' 4 4 (formatXYN f x y n) = Field.toNibble y := by
    unfold formatXYN
    ext i hi
    simp only [BitVec.getElem_extractLsb', BitVec.getLsbD_append]
    rw [if_pos (by omega), if_pos (by omega), if_neg (by omega)]
    simp [BitVec.getLsbD_eq_getElem, hi]
  simp [Field.y, this]

theorem Field.n_formatXYN : Field.n (formatXYN f x y n) = n := by
  have : BitVec.extractLsb' 0 4 (formatXYN f x y n) = Field.toNibble n := by
    unfold formatXYN
    ext i hi
    simp only [BitVec.getElem_extractLsb', BitVec.getLsbD_append]
    rw [if_pos (by omega), if_pos (by omega), if_pos (by omega)]
    simp [BitVec.getLsbD_eq_getElem, hi]
  simp [Field.n, this]

end

/-! ## A word from its fields -/

theorem formatA_fields (w : Word) : formatA (Field.fam w) (Field.nnn w) = w := by
  unfold formatA Field.fam Field.nnn
  ext i hi
  simp only [BitVec.getElem_append, BitVec.getElem_extractLsb']
  split <;> simp [← BitVec.getLsbD_eq_getElem]
  congr 1; omega

theorem formatXK_fields (w : Word) : formatXK (Field.fam w) (Field.x w) (Field.kk w) = w := by
  unfold formatXK Field.fam Field.x Field.kk
  ext i hi
  simp only [BitVec.getElem_append, BitVec.getElem_extractLsb', Field.toNibble_ofNibble]
  split
  · split
    · simp [← BitVec.getLsbD_eq_getElem]
    · simp [← BitVec.getLsbD_eq_getElem]; congr 1; omega
  · simp [← BitVec.getLsbD_eq_getElem]; congr 1; omega

theorem formatXYN_fields (w : Word) : formatXYN (Field.fam w) (Field.x w) (Field.y w) (Field.n w) = w := by
  unfold formatXYN Field.fam Field.x Field.y Field.n
  ext i hi
  simp only [BitVec.getElem_append, BitVec.getElem_extractLsb', Field.toNibble_ofNibble]
  split
  · split
    · split
      · simp [← BitVec.getLsbD_eq_getElem]
      · simp [← BitVec.getLsbD_eq_getElem]; congr 1; omega
    · simp [← BitVec.getLsbD_eq_getElem]; congr 1; omega
  · simp [← BitVec.getLsbD_eq_getElem]; congr 1; omega

/-! ## What a match of mask bits says (R80) -/

section
variable {w m b : Word} (h : w &&& m = b)
include h

theorem Field.fam_of_match (hm : Field.fam m = 0xF#4) : Field.fam w = Field.fam b := by
  subst h
  have : Field.fam (w &&& m) = Field.fam w &&& Field.fam m := BitVec.extractLsb'_and ..
  rw [this, hm, show (0xF#4) = BitVec.allOnes 4 from rfl, BitVec.and_allOnes]

theorem Field.kk_of_match (hm : Field.kk m = 0xFF#8) : Field.kk w = Field.kk b := by
  subst h
  have : Field.kk (w &&& m) = Field.kk w &&& Field.kk m := BitVec.extractLsb'_and ..
  rw [this, hm, show (0xFF#8) = BitVec.allOnes 8 from rfl, BitVec.and_allOnes]

theorem Field.n_of_match (hm : m.extractLsb' 0 4 = 0xF#4) : Field.n w = Field.n b := by
  subst h
  have : (w &&& m).extractLsb' 0 4 = w.extractLsb' 0 4 &&& m.extractLsb' 0 4 := BitVec.extractLsb'_and ..
  unfold Field.n
  rw [this, hm, show (0xF#4) = BitVec.allOnes 4 from rfl, BitVec.and_allOnes]

end

/-! ## The ignored low nibble (R79) -/

theorem getLsbD_formatXYN (f : BitVec 4) (x y n : Fin 16) (i : Nat) :
    (formatXYN f x y n).getLsbD i =
      if i < 4 then (Field.toNibble n).getLsbD i
      else if i < 8 then (Field.toNibble y).getLsbD (i - 4)
      else if i < 12 then (Field.toNibble x).getLsbD (i - 8)
      else f.getLsbD (i - 12) := by
  unfold formatXYN
  simp only [BitVec.getLsbD_append]
  by_cases h1 : i < 4
  · simp [h1, show i < 8 by omega, show i < 12 by omega]
  · by_cases h2 : i < 8
    · simp [h1, h2, show i < 12 by omega, show i - 4 < 4 by omega]
    · by_cases h3 : i < 12
      · simp [h1, h2, h3]
      · simp [h1, h2, h3]

/-- Masking the low nibble is encoding it as 0. -/
theorem formatXYN_and_mask (f : BitVec 4) (x y n : Fin 16) : formatXYN f x y n &&& 0xFFF0 = formatXYN f x y 0 := by
  apply BitVec.eq_of_getLsbD_eq
  intro i hi
  rw [BitVec.getLsbD_and, getLsbD_formatXYN, getLsbD_formatXYN]
  interval_cases i <;> simp [Field.toNibble]

end Sys2Proof
end

