-- ==== Sys2Proof/Laws/Memory.lean ====
section
/-! SUPPORT. The laws of memory: read after write, and the canonical form that every operation keeps. -/

namespace Sys2Proof.Machine

/-! ## Read after write -/

theorem Memory.read_erase (m : Memory) (a b : Nat) :
    (m.erase a).read b = if b = a then Memory.unlisted b else m.read b := by
  induction m with
  | nil => simp [Memory.erase, Memory.read]
  | cons c rest ih =>
    simp only [Memory.erase, Memory.read]
    split <;> simp only [Memory.read, ih] <;> grind

theorem Memory.read_insert (m : Memory) (a : Nat) (v : Byte) (b : Nat) :
    (m.insert a v).read b = if b = a then v else m.read b := by
  induction m with
  | nil => simp [Memory.insert, Memory.read, eq_comm]
  | cons c rest ih =>
    simp only [Memory.insert]
    split
    · simp only [Memory.read]; grind
    · split <;> simp only [Memory.read, ih] <;> grind

/-- A read after a write: the written byte there, everywhere else what was there (R43). -/
theorem Memory.read_write (m : Memory) (a : Nat) (v : Byte) (b : Nat) :
    (m.write a v).read b = if b = a then v else m.read b := by
  unfold Memory.write
  split
  · rw [Memory.read_erase]; grind
  · exact Memory.read_insert m a v b

@[simp] theorem Memory.read_write_self (m : Memory) (a : Nat) (v : Byte) : (m.write a v).read a = v := by
  simp [Memory.read_write]

theorem Memory.read_write_ne (m : Memory) {a b : Nat} (v : Byte) (h : b ≠ a) : (m.write a v).read b = m.read b := by
  simp [Memory.read_write, h]

/-- A read after the bytes of a list were written at `a`, `a + 1`, ...: the i-th byte at `a + i`, everywhere else what was
there (R46, R48). -/
theorem Memory.read_writeBytes (m : Memory) (a : Nat) (vs : List Byte) (b : Nat) :
    (m.writeBytes a vs).read b =
      if h : a ≤ b ∧ b - a < vs.length then vs[b - a]'h.2 else m.read b := by
  induction vs generalizing m a with
  | nil => simp [Memory.writeBytes]
  | cons v rest ih =>
    simp only [Memory.writeBytes, ih, Memory.read_write, List.length_cons]
    by_cases hb : b = a
    · subst hb; simp
    · by_cases h1 : a ≤ b
      · obtain ⟨k, rfl⟩ : ∃ k, b = a + 1 + k := ⟨b - a - 1, by omega⟩
        have e1 : a + 1 + k - (a + 1) = k := by omega
        have e2 : a + 1 + k - a = k + 1 := by omega
        simp only [e1, e2, List.getElem_cons_succ]
        simp [hb]
        grind
      · have h2 : ¬ a + 1 ≤ b := by omega
        simp [h1, h2, hb]

theorem Memory.read_writeBytes_outside (m : Memory) (a : Nat) (vs : List Byte) (b : Nat)
    (h : b < a ∨ a + vs.length ≤ b) : (m.writeBytes a vs).read b = m.read b := by
  rw [Memory.read_writeBytes, dif_neg]; omega

theorem Memory.read_writeBytes_inside (m : Memory) (a : Nat) (vs : List Byte) (k : Nat) (h : k < vs.length) :
    (m.writeBytes a vs).read (a + k) = vs[k] := by
  have e : a + k - a = k := by omega
  rw [Memory.read_writeBytes, dif_pos ⟨by omega, by omega⟩]
  simp only [e]

@[simp] theorem Memory.length_readBytes (m : Memory) (a n : Nat) : (m.readBytes a n).length = n := by
  induction n generalizing a with
  | zero => rfl
  | succ n ih => simp [Memory.readBytes, ih]

/-- The i-th of the bytes at `a`, `a + 1`, ... is the one at `a + i`. -/
theorem Memory.getElem_readBytes (m : Memory) (a n i : Nat) (h : i < (m.readBytes a n).length) :
    (m.readBytes a n)[i] = m.read (a + i) := by
  induction n generalizing a i with
  | zero => simp [Memory.readBytes] at h
  | succ n ih =>
    cases i with
    | zero => simp [Memory.readBytes]
    | succ i =>
      simp only [Memory.readBytes, List.getElem_cons_succ]
      rw [ih]
      congr 1; omega

theorem Memory.read_write16 (m : Memory) (a : Nat) (v : Word) (b : Nat) :
    (m.write16 a v).read b = if b = a + 1 then lowByte v else if b = a then highByte v else m.read b := by
  simp [Memory.write16, Memory.read_write]

/-- `get16` after `set16` (R42, R43). -/
theorem Memory.read16_write16 (m : Memory) (a : Nat) (v : Word) : (m.write16 a v).read16 a = v := by
  simp [Memory.read16, Memory.read_write16, wordOfBytes_bytes]

/-! ## The canonical form -/

theorem Memory.mem_erase {m : Memory} {a : Nat} {c : Host.Cell} (h : c ∈ m.erase a) : c ∈ m := by
  induction m with
  | nil => simp [Memory.erase] at h
  | cons d rest ih =>
    simp only [Memory.erase] at h
    grind

theorem Memory.mem_insert {m : Memory} {a : Nat} {v : Byte} {c : Host.Cell} (h : c ∈ m.insert a v) :
    c = (a, v) ∨ c ∈ m := by
  induction m with
  | nil => simpa [Memory.insert] using h
  | cons d rest ih =>
    simp only [Memory.insert] at h
    grind

theorem Memory.wf_cons (a : Nat) (v : Byte) (rest : Memory) :
    Memory.wf ((a, v) :: rest) = true ↔
      a < Params.memSize ∧ v ≠ Memory.unlisted a ∧ (∀ c ∈ rest, a < c.1) ∧ Memory.wf rest = true := by
  simp [Memory.wf, and_assoc]

theorem Memory.wf_erase {m : Memory} (h : m.wf = true) (a : Nat) : (m.erase a).wf = true := by
  induction m with
  | nil => rfl
  | cons c rest ih =>
    obtain ⟨b, w⟩ := c
    obtain ⟨h1, h2, h3, h4⟩ := (Memory.wf_cons b w rest).1 h
    simp only [Memory.erase]
    split
    · exact ih h4
    · exact (Memory.wf_cons ..).2 ⟨h1, h2, fun c hc => h3 c (Memory.mem_erase hc), ih h4⟩

theorem Memory.wf_insert {m : Memory} (h : m.wf = true) {a : Nat} {v : Byte} (ha : a < Params.memSize)
    (hv : v ≠ Memory.unlisted a) : (m.insert a v).wf = true := by
  induction m with
  | nil => simp [Memory.insert, Memory.wf, ha, hv]
  | cons c rest ih =>
    obtain ⟨b, w⟩ := c
    obtain ⟨h1, h2, h3, h4⟩ := (Memory.wf_cons b w rest).1 h
    simp only [Memory.insert]
    split
    · rename_i hab
      refine (Memory.wf_cons ..).2 ⟨ha, hv, ?_, h⟩
      intro c hc
      rcases List.mem_cons.1 hc with rfl | hc
      · exact hab
      · exact Nat.lt_trans hab (h3 c hc)
    · split
      · rename_i hba
        subst hba
        exact (Memory.wf_cons ..).2 ⟨ha, hv, h3, h4⟩
      · rename_i h5 h6
        refine (Memory.wf_cons ..).2 ⟨h1, h2, ?_, ih h4⟩
        intro c hc
        rcases Memory.mem_insert hc with rfl | hc
        · show b < a
          omega
        · exact h3 c hc

/-- A write below `MEM_SIZE` keeps the canonical form. -/
theorem Memory.wf_write {m : Memory} (h : m.wf = true) {a : Nat} (v : Byte) (ha : a < Params.memSize) :
    (m.write a v).wf = true := by
  unfold Memory.write
  split
  · exact Memory.wf_erase h a
  · exact Memory.wf_insert h ha ‹_›

/-- A write of a list of bytes below `MEM_SIZE` keeps the canonical form. -/
theorem Memory.wf_writeBytes {m : Memory} (h : m.wf = true) {a : Nat} (vs : List Byte)
    (ha : a + vs.length ≤ Params.memSize) : (m.writeBytes a vs).wf = true := by
  induction vs generalizing m a with
  | nil => exact h
  | cons v rest ih =>
    simp only [List.length_cons] at ha
    exact ih (Memory.wf_write h v (by omega)) (by omega)

theorem Memory.wf_write16 {m : Memory} (h : m.wf = true) {a : Nat} (v : Word) (ha : a + 2 ≤ Params.memSize) :
    (m.write16 a v).wf = true :=
  Memory.wf_write (Memory.wf_write h _ (by omega)) _ (by omega)

theorem inRange_eq (addr n : Nat) : inRange addr n = true ↔ addr + n ≤ Params.memSize := by simp [inRange]

end Sys2Proof.Machine
end

