-- ==== Sys2Proof/Laws/State.lean ====
section
/-! SUPPORT. One lemma per field per update of a state, each true by rfl, so that no proof unfolds a record update. -/

namespace Sys2Proof.Machine

variable (s : State)

@[simp] theorem State.setPc_x (a : Addr) : (s.setPc a).x = s.x := rfl
@[simp] theorem State.setPc_I (a : Addr) : (s.setPc a).I = s.I := rfl
@[simp] theorem State.setPc_pc (a : Addr) : (s.setPc a).pc = a := rfl
@[simp] theorem State.setPc_stack (a : Addr) : (s.setPc a).stack = s.stack := rfl
@[simp] theorem State.setPc_sp (a : Addr) : (s.setPc a).sp = s.sp := rfl
@[simp] theorem State.setPc_dt (a : Addr) : (s.setPc a).dt = s.dt := rfl
@[simp] theorem State.setPc_st (a : Addr) : (s.setPc a).st = s.st := rfl
@[simp] theorem State.setPc_mem (a : Addr) : (s.setPc a).mem = s.mem := rfl
@[simp] theorem State.setPc_fb (a : Addr) : (s.setPc a).fb = s.fb := rfl
@[simp] theorem State.setPc_keys (a : Addr) : (s.setPc a).keys = s.keys := rfl
@[simp] theorem State.setPc_lastKey (a : Addr) : (s.setPc a).lastKey = s.lastKey := rfl
@[simp] theorem State.setPc_exit (a : Addr) : (s.setPc a).exit = s.exit := rfl
@[simp] theorem State.setPc_fault (a : Addr) : (s.setPc a).fault = s.fault := rfl
@[simp] theorem State.setPc_schedule (a : Addr) : (s.setPc a).schedule = s.schedule := rfl
@[simp] theorem State.setPc_turns (a : Addr) : (s.setPc a).turns = s.turns := rfl
@[simp] theorem State.setPc_keyIn (a : Addr) : (s.setPc a).keyIn = s.keyIn := rfl
@[simp] theorem State.setPc_randIn (a : Addr) : (s.setPc a).randIn = s.randIn := rfl
@[simp] theorem State.setPc_draws (a : Addr) : (s.setPc a).draws = s.draws := rfl
@[simp] theorem State.setPc_frameOut (a : Addr) : (s.setPc a).frameOut = s.frameOut := rfl
@[simp] theorem State.setPc_reg (a : Addr) (q : RegIdx) : (s.setPc a).reg q = s.reg q := rfl
@[simp] theorem State.setPc_key (a : Addr) (q : KeyIdx) : (s.setPc a).key q = s.key q := rfl

@[simp] theorem State.setReg_x (r : RegIdx) (v : Byte) : (s.setReg r v).x = s.x.set r.val v := rfl
@[simp] theorem State.setReg_I (r : RegIdx) (v : Byte) : (s.setReg r v).I = s.I := rfl
@[simp] theorem State.setReg_pc (r : RegIdx) (v : Byte) : (s.setReg r v).pc = s.pc := rfl
@[simp] theorem State.setReg_stack (r : RegIdx) (v : Byte) : (s.setReg r v).stack = s.stack := rfl
@[simp] theorem State.setReg_sp (r : RegIdx) (v : Byte) : (s.setReg r v).sp = s.sp := rfl
@[simp] theorem State.setReg_dt (r : RegIdx) (v : Byte) : (s.setReg r v).dt = s.dt := rfl
@[simp] theorem State.setReg_st (r : RegIdx) (v : Byte) : (s.setReg r v).st = s.st := rfl
@[simp] theorem State.setReg_mem (r : RegIdx) (v : Byte) : (s.setReg r v).mem = s.mem := rfl
@[simp] theorem State.setReg_fb (r : RegIdx) (v : Byte) : (s.setReg r v).fb = s.fb := rfl
@[simp] theorem State.setReg_keys (r : RegIdx) (v : Byte) : (s.setReg r v).keys = s.keys := rfl
@[simp] theorem State.setReg_lastKey (r : RegIdx) (v : Byte) : (s.setReg r v).lastKey = s.lastKey := rfl
@[simp] theorem State.setReg_exit (r : RegIdx) (v : Byte) : (s.setReg r v).exit = s.exit := rfl
@[simp] theorem State.setReg_fault (r : RegIdx) (v : Byte) : (s.setReg r v).fault = s.fault := rfl
@[simp] theorem State.setReg_schedule (r : RegIdx) (v : Byte) : (s.setReg r v).schedule = s.schedule := rfl
@[simp] theorem State.setReg_turns (r : RegIdx) (v : Byte) : (s.setReg r v).turns = s.turns := rfl
@[simp] theorem State.setReg_keyIn (r : RegIdx) (v : Byte) : (s.setReg r v).keyIn = s.keyIn := rfl
@[simp] theorem State.setReg_randIn (r : RegIdx) (v : Byte) : (s.setReg r v).randIn = s.randIn := rfl
@[simp] theorem State.setReg_draws (r : RegIdx) (v : Byte) : (s.setReg r v).draws = s.draws := rfl
@[simp] theorem State.setReg_frameOut (r : RegIdx) (v : Byte) : (s.setReg r v).frameOut = s.frameOut := rfl
@[simp] theorem State.setReg_key (r : RegIdx) (v : Byte) (q : KeyIdx) : (s.setReg r v).key q = s.key q := rfl
@[simp] theorem State.setReg_fetch (r : RegIdx) (v : Byte) : (s.setReg r v).fetch? = s.fetch? := rfl

@[simp] theorem State.setI_x (a : Addr) : (s.setI a).x = s.x := rfl
@[simp] theorem State.setI_I (a : Addr) : (s.setI a).I = a := rfl
@[simp] theorem State.setI_pc (a : Addr) : (s.setI a).pc = s.pc := rfl
@[simp] theorem State.setI_stack (a : Addr) : (s.setI a).stack = s.stack := rfl
@[simp] theorem State.setI_sp (a : Addr) : (s.setI a).sp = s.sp := rfl
@[simp] theorem State.setI_dt (a : Addr) : (s.setI a).dt = s.dt := rfl
@[simp] theorem State.setI_st (a : Addr) : (s.setI a).st = s.st := rfl
@[simp] theorem State.setI_mem (a : Addr) : (s.setI a).mem = s.mem := rfl
@[simp] theorem State.setI_fb (a : Addr) : (s.setI a).fb = s.fb := rfl
@[simp] theorem State.setI_keys (a : Addr) : (s.setI a).keys = s.keys := rfl
@[simp] theorem State.setI_lastKey (a : Addr) : (s.setI a).lastKey = s.lastKey := rfl
@[simp] theorem State.setI_exit (a : Addr) : (s.setI a).exit = s.exit := rfl
@[simp] theorem State.setI_fault (a : Addr) : (s.setI a).fault = s.fault := rfl
@[simp] theorem State.setI_schedule (a : Addr) : (s.setI a).schedule = s.schedule := rfl
@[simp] theorem State.setI_turns (a : Addr) : (s.setI a).turns = s.turns := rfl
@[simp] theorem State.setI_keyIn (a : Addr) : (s.setI a).keyIn = s.keyIn := rfl
@[simp] theorem State.setI_randIn (a : Addr) : (s.setI a).randIn = s.randIn := rfl
@[simp] theorem State.setI_draws (a : Addr) : (s.setI a).draws = s.draws := rfl
@[simp] theorem State.setI_frameOut (a : Addr) : (s.setI a).frameOut = s.frameOut := rfl
@[simp] theorem State.setI_reg (a : Addr) (q : RegIdx) : (s.setI a).reg q = s.reg q := rfl
@[simp] theorem State.setI_key (a : Addr) (q : KeyIdx) : (s.setI a).key q = s.key q := rfl
@[simp] theorem State.setI_fetch (a : Addr) : (s.setI a).fetch? = s.fetch? := rfl

@[simp] theorem State.setDt_x (v : Byte) : (s.setDt v).x = s.x := rfl
@[simp] theorem State.setDt_I (v : Byte) : (s.setDt v).I = s.I := rfl
@[simp] theorem State.setDt_pc (v : Byte) : (s.setDt v).pc = s.pc := rfl
@[simp] theorem State.setDt_stack (v : Byte) : (s.setDt v).stack = s.stack := rfl
@[simp] theorem State.setDt_sp (v : Byte) : (s.setDt v).sp = s.sp := rfl
@[simp] theorem State.setDt_dt (v : Byte) : (s.setDt v).dt = v := rfl
@[simp] theorem State.setDt_st (v : Byte) : (s.setDt v).st = s.st := rfl
@[simp] theorem State.setDt_mem (v : Byte) : (s.setDt v).mem = s.mem := rfl
@[simp] theorem State.setDt_fb (v : Byte) : (s.setDt v).fb = s.fb := rfl
@[simp] theorem State.setDt_keys (v : Byte) : (s.setDt v).keys = s.keys := rfl
@[simp] theorem State.setDt_lastKey (v : Byte) : (s.setDt v).lastKey = s.lastKey := rfl
@[simp] theorem State.setDt_exit (v : Byte) : (s.setDt v).exit = s.exit := rfl
@[simp] theorem State.setDt_fault (v : Byte) : (s.setDt v).fault = s.fault := rfl
@[simp] theorem State.setDt_schedule (v : Byte) : (s.setDt v).schedule = s.schedule := rfl
@[simp] theorem State.setDt_turns (v : Byte) : (s.setDt v).turns = s.turns := rfl
@[simp] theorem State.setDt_keyIn (v : Byte) : (s.setDt v).keyIn = s.keyIn := rfl
@[simp] theorem State.setDt_randIn (v : Byte) : (s.setDt v).randIn = s.randIn := rfl
@[simp] theorem State.setDt_draws (v : Byte) : (s.setDt v).draws = s.draws := rfl
@[simp] theorem State.setDt_frameOut (v : Byte) : (s.setDt v).frameOut = s.frameOut := rfl
@[simp] theorem State.setDt_reg (v : Byte) (q : RegIdx) : (s.setDt v).reg q = s.reg q := rfl
@[simp] theorem State.setDt_key (v : Byte) (q : KeyIdx) : (s.setDt v).key q = s.key q := rfl
@[simp] theorem State.setDt_fetch (v : Byte) : (s.setDt v).fetch? = s.fetch? := rfl

@[simp] theorem State.setSt_x (v : Byte) : (s.setSt v).x = s.x := rfl
@[simp] theorem State.setSt_I (v : Byte) : (s.setSt v).I = s.I := rfl
@[simp] theorem State.setSt_pc (v : Byte) : (s.setSt v).pc = s.pc := rfl
@[simp] theorem State.setSt_stack (v : Byte) : (s.setSt v).stack = s.stack := rfl
@[simp] theorem State.setSt_sp (v : Byte) : (s.setSt v).sp = s.sp := rfl
@[simp] theorem State.setSt_dt (v : Byte) : (s.setSt v).dt = s.dt := rfl
@[simp] theorem State.setSt_st (v : Byte) : (s.setSt v).st = v := rfl
@[simp] theorem State.setSt_mem (v : Byte) : (s.setSt v).mem = s.mem := rfl
@[simp] theorem State.setSt_fb (v : Byte) : (s.setSt v).fb = s.fb := rfl
@[simp] theorem State.setSt_keys (v : Byte) : (s.setSt v).keys = s.keys := rfl
@[simp] theorem State.setSt_lastKey (v : Byte) : (s.setSt v).lastKey = s.lastKey := rfl
@[simp] theorem State.setSt_exit (v : Byte) : (s.setSt v).exit = s.exit := rfl
@[simp] theorem State.setSt_fault (v : Byte) : (s.setSt v).fault = s.fault := rfl
@[simp] theorem State.setSt_schedule (v : Byte) : (s.setSt v).schedule = s.schedule := rfl
@[simp] theorem State.setSt_turns (v : Byte) : (s.setSt v).turns = s.turns := rfl
@[simp] theorem State.setSt_keyIn (v : Byte) : (s.setSt v).keyIn = s.keyIn := rfl
@[simp] theorem State.setSt_randIn (v : Byte) : (s.setSt v).randIn = s.randIn := rfl
@[simp] theorem State.setSt_draws (v : Byte) : (s.setSt v).draws = s.draws := rfl
@[simp] theorem State.setSt_frameOut (v : Byte) : (s.setSt v).frameOut = s.frameOut := rfl
@[simp] theorem State.setSt_reg (v : Byte) (q : RegIdx) : (s.setSt v).reg q = s.reg q := rfl
@[simp] theorem State.setSt_key (v : Byte) (q : KeyIdx) : (s.setSt v).key q = s.key q := rfl
@[simp] theorem State.setSt_fetch (v : Byte) : (s.setSt v).fetch? = s.fetch? := rfl

@[simp] theorem State.setMem_x (m : Memory) : (s.setMem m).x = s.x := rfl
@[simp] theorem State.setMem_I (m : Memory) : (s.setMem m).I = s.I := rfl
@[simp] theorem State.setMem_pc (m : Memory) : (s.setMem m).pc = s.pc := rfl
@[simp] theorem State.setMem_stack (m : Memory) : (s.setMem m).stack = s.stack := rfl
@[simp] theorem State.setMem_sp (m : Memory) : (s.setMem m).sp = s.sp := rfl
@[simp] theorem State.setMem_dt (m : Memory) : (s.setMem m).dt = s.dt := rfl
@[simp] theorem State.setMem_st (m : Memory) : (s.setMem m).st = s.st := rfl
@[simp] theorem State.setMem_mem (m : Memory) : (s.setMem m).mem = m := rfl
@[simp] theorem State.setMem_fb (m : Memory) : (s.setMem m).fb = s.fb := rfl
@[simp] theorem State.setMem_keys (m : Memory) : (s.setMem m).keys = s.keys := rfl
@[simp] theorem State.setMem_lastKey (m : Memory) : (s.setMem m).lastKey = s.lastKey := rfl
@[simp] theorem State.setMem_exit (m : Memory) : (s.setMem m).exit = s.exit := rfl
@[simp] theorem State.setMem_fault (m : Memory) : (s.setMem m).fault = s.fault := rfl
@[simp] theorem State.setMem_schedule (m : Memory) : (s.setMem m).schedule = s.schedule := rfl
@[simp] theorem State.setMem_turns (m : Memory) : (s.setMem m).turns = s.turns := rfl
@[simp] theorem State.setMem_keyIn (m : Memory) : (s.setMem m).keyIn = s.keyIn := rfl
@[simp] theorem State.setMem_randIn (m : Memory) : (s.setMem m).randIn = s.randIn := rfl
@[simp] theorem State.setMem_draws (m : Memory) : (s.setMem m).draws = s.draws := rfl
@[simp] theorem State.setMem_frameOut (m : Memory) : (s.setMem m).frameOut = s.frameOut := rfl
@[simp] theorem State.setMem_reg (m : Memory) (q : RegIdx) : (s.setMem m).reg q = s.reg q := rfl
@[simp] theorem State.setMem_key (m : Memory) (q : KeyIdx) : (s.setMem m).key q = s.key q := rfl

@[simp] theorem State.setFb_x (f : FrameBuffer) : (s.setFb f).x = s.x := rfl
@[simp] theorem State.setFb_I (f : FrameBuffer) : (s.setFb f).I = s.I := rfl
@[simp] theorem State.setFb_pc (f : FrameBuffer) : (s.setFb f).pc = s.pc := rfl
@[simp] theorem State.setFb_stack (f : FrameBuffer) : (s.setFb f).stack = s.stack := rfl
@[simp] theorem State.setFb_sp (f : FrameBuffer) : (s.setFb f).sp = s.sp := rfl
@[simp] theorem State.setFb_dt (f : FrameBuffer) : (s.setFb f).dt = s.dt := rfl
@[simp] theorem State.setFb_st (f : FrameBuffer) : (s.setFb f).st = s.st := rfl
@[simp] theorem State.setFb_mem (f : FrameBuffer) : (s.setFb f).mem = s.mem := rfl
@[simp] theorem State.setFb_fb (f : FrameBuffer) : (s.setFb f).fb = f := rfl
@[simp] theorem State.setFb_keys (f : FrameBuffer) : (s.setFb f).keys = s.keys := rfl
@[simp] theorem State.setFb_lastKey (f : FrameBuffer) : (s.setFb f).lastKey = s.lastKey := rfl
@[simp] theorem State.setFb_exit (f : FrameBuffer) : (s.setFb f).exit = s.exit := rfl
@[simp] theorem State.setFb_fault (f : FrameBuffer) : (s.setFb f).fault = s.fault := rfl
@[simp] theorem State.setFb_schedule (f : FrameBuffer) : (s.setFb f).schedule = s.schedule := rfl
@[simp] theorem State.setFb_turns (f : FrameBuffer) : (s.setFb f).turns = s.turns := rfl
@[simp] theorem State.setFb_keyIn (f : FrameBuffer) : (s.setFb f).keyIn = s.keyIn := rfl
@[simp] theorem State.setFb_randIn (f : FrameBuffer) : (s.setFb f).randIn = s.randIn := rfl
@[simp] theorem State.setFb_draws (f : FrameBuffer) : (s.setFb f).draws = s.draws := rfl
@[simp] theorem State.setFb_frameOut (f : FrameBuffer) : (s.setFb f).frameOut = s.frameOut := rfl
@[simp] theorem State.setFb_reg (f : FrameBuffer) (q : RegIdx) : (s.setFb f).reg q = s.reg q := rfl
@[simp] theorem State.setFb_key (f : FrameBuffer) (q : KeyIdx) : (s.setFb f).key q = s.key q := rfl
@[simp] theorem State.setFb_fetch (f : FrameBuffer) : (s.setFb f).fetch? = s.fetch? := rfl

@[simp] theorem State.setStack_x (k : Vector Addr Config.stackDepth) (n : Fin (Config.stackDepth + 1)) : (s.setStack k n).x = s.x := rfl
@[simp] theorem State.setStack_I (k : Vector Addr Config.stackDepth) (n : Fin (Config.stackDepth + 1)) : (s.setStack k n).I = s.I := rfl
@[simp] theorem State.setStack_pc (k : Vector Addr Config.stackDepth) (n : Fin (Config.stackDepth + 1)) : (s.setStack k n).pc = s.pc := rfl
@[simp] theorem State.setStack_stack (k : Vector Addr Config.stackDepth) (n : Fin (Config.stackDepth + 1)) : (s.setStack k n).stack = k := rfl
@[simp] theorem State.setStack_sp (k : Vector Addr Config.stackDepth) (n : Fin (Config.stackDepth + 1)) : (s.setStack k n).sp = n := rfl
@[simp] theorem State.setStack_dt (k : Vector Addr Config.stackDepth) (n : Fin (Config.stackDepth + 1)) : (s.setStack k n).dt = s.dt := rfl
@[simp] theorem State.setStack_st (k : Vector Addr Config.stackDepth) (n : Fin (Config.stackDepth + 1)) : (s.setStack k n).st = s.st := rfl
@[simp] theorem State.setStack_mem (k : Vector Addr Config.stackDepth) (n : Fin (Config.stackDepth + 1)) : (s.setStack k n).mem = s.mem := rfl
@[simp] theorem State.setStack_fb (k : Vector Addr Config.stackDepth) (n : Fin (Config.stackDepth + 1)) : (s.setStack k n).fb = s.fb := rfl
@[simp] theorem State.setStack_keys (k : Vector Addr Config.stackDepth) (n : Fin (Config.stackDepth + 1)) : (s.setStack k n).keys = s.keys := rfl
@[simp] theorem State.setStack_lastKey (k : Vector Addr Config.stackDepth) (n : Fin (Config.stackDepth + 1)) : (s.setStack k n).lastKey = s.lastKey := rfl
@[simp] theorem State.setStack_exit (k : Vector Addr Config.stackDepth) (n : Fin (Config.stackDepth + 1)) : (s.setStack k n).exit = s.exit := rfl
@[simp] theorem State.setStack_fault (k : Vector Addr Config.stackDepth) (n : Fin (Config.stackDepth + 1)) : (s.setStack k n).fault = s.fault := rfl
@[simp] theorem State.setStack_schedule (k : Vector Addr Config.stackDepth) (n : Fin (Config.stackDepth + 1)) : (s.setStack k n).schedule = s.schedule := rfl
@[simp] theorem State.setStack_turns (k : Vector Addr Config.stackDepth) (n : Fin (Config.stackDepth + 1)) : (s.setStack k n).turns = s.turns := rfl
@[simp] theorem State.setStack_keyIn (k : Vector Addr Config.stackDepth) (n : Fin (Config.stackDepth + 1)) : (s.setStack k n).keyIn = s.keyIn := rfl
@[simp] theorem State.setStack_randIn (k : Vector Addr Config.stackDepth) (n : Fin (Config.stackDepth + 1)) : (s.setStack k n).randIn = s.randIn := rfl
@[simp] theorem State.setStack_draws (k : Vector Addr Config.stackDepth) (n : Fin (Config.stackDepth + 1)) : (s.setStack k n).draws = s.draws := rfl
@[simp] theorem State.setStack_frameOut (k : Vector Addr Config.stackDepth) (n : Fin (Config.stackDepth + 1)) : (s.setStack k n).frameOut = s.frameOut := rfl
@[simp] theorem State.setStack_reg (k : Vector Addr Config.stackDepth) (n : Fin (Config.stackDepth + 1)) (q : RegIdx) : (s.setStack k n).reg q = s.reg q := rfl
@[simp] theorem State.setStack_key (k : Vector Addr Config.stackDepth) (n : Fin (Config.stackDepth + 1)) (q : KeyIdx) : (s.setStack k n).key q = s.key q := rfl
@[simp] theorem State.setStack_fetch (k : Vector Addr Config.stackDepth) (n : Fin (Config.stackDepth + 1)) : (s.setStack k n).fetch? = s.fetch? := rfl

@[simp] theorem State.setKeys_x (k : KeyFlags) (l : Option KeyIdx) : (s.setKeys k l).x = s.x := rfl
@[simp] theorem State.setKeys_I (k : KeyFlags) (l : Option KeyIdx) : (s.setKeys k l).I = s.I := rfl
@[simp] theorem State.setKeys_pc (k : KeyFlags) (l : Option KeyIdx) : (s.setKeys k l).pc = s.pc := rfl
@[simp] theorem State.setKeys_stack (k : KeyFlags) (l : Option KeyIdx) : (s.setKeys k l).stack = s.stack := rfl
@[simp] theorem State.setKeys_sp (k : KeyFlags) (l : Option KeyIdx) : (s.setKeys k l).sp = s.sp := rfl
@[simp] theorem State.setKeys_dt (k : KeyFlags) (l : Option KeyIdx) : (s.setKeys k l).dt = s.dt := rfl
@[simp] theorem State.setKeys_st (k : KeyFlags) (l : Option KeyIdx) : (s.setKeys k l).st = s.st := rfl
@[simp] theorem State.setKeys_mem (k : KeyFlags) (l : Option KeyIdx) : (s.setKeys k l).mem = s.mem := rfl
@[simp] theorem State.setKeys_fb (k : KeyFlags) (l : Option KeyIdx) : (s.setKeys k l).fb = s.fb := rfl
@[simp] theorem State.setKeys_keys (k : KeyFlags) (l : Option KeyIdx) : (s.setKeys k l).keys = k := rfl
@[simp] theorem State.setKeys_lastKey (k : KeyFlags) (l : Option KeyIdx) : (s.setKeys k l).lastKey = l := rfl
@[simp] theorem State.setKeys_exit (k : KeyFlags) (l : Option KeyIdx) : (s.setKeys k l).exit = s.exit := rfl
@[simp] theorem State.setKeys_fault (k : KeyFlags) (l : Option KeyIdx) : (s.setKeys k l).fault = s.fault := rfl
@[simp] theorem State.setKeys_schedule (k : KeyFlags) (l : Option KeyIdx) : (s.setKeys k l).schedule = s.schedule := rfl
@[simp] theorem State.setKeys_turns (k : KeyFlags) (l : Option KeyIdx) : (s.setKeys k l).turns = s.turns := rfl
@[simp] theorem State.setKeys_keyIn (k : KeyFlags) (l : Option KeyIdx) : (s.setKeys k l).keyIn = s.keyIn := rfl
@[simp] theorem State.setKeys_randIn (k : KeyFlags) (l : Option KeyIdx) : (s.setKeys k l).randIn = s.randIn := rfl
@[simp] theorem State.setKeys_draws (k : KeyFlags) (l : Option KeyIdx) : (s.setKeys k l).draws = s.draws := rfl
@[simp] theorem State.setKeys_frameOut (k : KeyFlags) (l : Option KeyIdx) : (s.setKeys k l).frameOut = s.frameOut := rfl
@[simp] theorem State.setKeys_reg (k : KeyFlags) (l : Option KeyIdx) (q : RegIdx) : (s.setKeys k l).reg q = s.reg q := rfl
@[simp] theorem State.setKeys_fetch (k : KeyFlags) (l : Option KeyIdx) : (s.setKeys k l).fetch? = s.fetch? := rfl

@[simp] theorem State.setExit_x : (s.setExit).x = s.x := rfl
@[simp] theorem State.setExit_I : (s.setExit).I = s.I := rfl
@[simp] theorem State.setExit_pc : (s.setExit).pc = s.pc := rfl
@[simp] theorem State.setExit_stack : (s.setExit).stack = s.stack := rfl
@[simp] theorem State.setExit_sp : (s.setExit).sp = s.sp := rfl
@[simp] theorem State.setExit_dt : (s.setExit).dt = s.dt := rfl
@[simp] theorem State.setExit_st : (s.setExit).st = s.st := rfl
@[simp] theorem State.setExit_mem : (s.setExit).mem = s.mem := rfl
@[simp] theorem State.setExit_fb : (s.setExit).fb = s.fb := rfl
@[simp] theorem State.setExit_keys : (s.setExit).keys = s.keys := rfl
@[simp] theorem State.setExit_lastKey : (s.setExit).lastKey = s.lastKey := rfl
@[simp] theorem State.setExit_exit : (s.setExit).exit = true := rfl
@[simp] theorem State.setExit_fault : (s.setExit).fault = s.fault := rfl
@[simp] theorem State.setExit_schedule : (s.setExit).schedule = s.schedule := rfl
@[simp] theorem State.setExit_turns : (s.setExit).turns = s.turns := rfl
@[simp] theorem State.setExit_keyIn : (s.setExit).keyIn = s.keyIn := rfl
@[simp] theorem State.setExit_randIn : (s.setExit).randIn = s.randIn := rfl
@[simp] theorem State.setExit_draws : (s.setExit).draws = s.draws := rfl
@[simp] theorem State.setExit_frameOut : (s.setExit).frameOut = s.frameOut := rfl
@[simp] theorem State.setExit_reg (q : RegIdx) : (s.setExit).reg q = s.reg q := rfl
@[simp] theorem State.setExit_key (q : KeyIdx) : (s.setExit).key q = s.key q := rfl
@[simp] theorem State.setExit_fetch : (s.setExit).fetch? = s.fetch? := rfl

@[simp] theorem State.setFault_x (r : FaultRecord) : (s.setFault r).x = s.x := rfl
@[simp] theorem State.setFault_I (r : FaultRecord) : (s.setFault r).I = s.I := rfl
@[simp] theorem State.setFault_pc (r : FaultRecord) : (s.setFault r).pc = s.pc := rfl
@[simp] theorem State.setFault_stack (r : FaultRecord) : (s.setFault r).stack = s.stack := rfl
@[simp] theorem State.setFault_sp (r : FaultRecord) : (s.setFault r).sp = s.sp := rfl
@[simp] theorem State.setFault_dt (r : FaultRecord) : (s.setFault r).dt = s.dt := rfl
@[simp] theorem State.setFault_st (r : FaultRecord) : (s.setFault r).st = s.st := rfl
@[simp] theorem State.setFault_mem (r : FaultRecord) : (s.setFault r).mem = s.mem := rfl
@[simp] theorem State.setFault_fb (r : FaultRecord) : (s.setFault r).fb = s.fb := rfl
@[simp] theorem State.setFault_keys (r : FaultRecord) : (s.setFault r).keys = s.keys := rfl
@[simp] theorem State.setFault_lastKey (r : FaultRecord) : (s.setFault r).lastKey = s.lastKey := rfl
@[simp] theorem State.setFault_exit (r : FaultRecord) : (s.setFault r).exit = s.exit := rfl
@[simp] theorem State.setFault_fault (r : FaultRecord) : (s.setFault r).fault = some r := rfl
@[simp] theorem State.setFault_schedule (r : FaultRecord) : (s.setFault r).schedule = s.schedule := rfl
@[simp] theorem State.setFault_turns (r : FaultRecord) : (s.setFault r).turns = s.turns := rfl
@[simp] theorem State.setFault_keyIn (r : FaultRecord) : (s.setFault r).keyIn = s.keyIn := rfl
@[simp] theorem State.setFault_randIn (r : FaultRecord) : (s.setFault r).randIn = s.randIn := rfl
@[simp] theorem State.setFault_draws (r : FaultRecord) : (s.setFault r).draws = s.draws := rfl
@[simp] theorem State.setFault_frameOut (r : FaultRecord) : (s.setFault r).frameOut = s.frameOut := rfl
@[simp] theorem State.setFault_reg (r : FaultRecord) (q : RegIdx) : (s.setFault r).reg q = s.reg q := rfl
@[simp] theorem State.setFault_key (r : FaultRecord) (q : KeyIdx) : (s.setFault r).key q = s.key q := rfl
@[simp] theorem State.setFault_fetch (r : FaultRecord) : (s.setFault r).fetch? = s.fetch? := rfl

@[simp] theorem State.setKeyIn_x (l : List KeySample) (n : Nat) : (s.setKeyIn l n).x = s.x := rfl
@[simp] theorem State.setKeyIn_I (l : List KeySample) (n : Nat) : (s.setKeyIn l n).I = s.I := rfl
@[simp] theorem State.setKeyIn_pc (l : List KeySample) (n : Nat) : (s.setKeyIn l n).pc = s.pc := rfl
@[simp] theorem State.setKeyIn_stack (l : List KeySample) (n : Nat) : (s.setKeyIn l n).stack = s.stack := rfl
@[simp] theorem State.setKeyIn_sp (l : List KeySample) (n : Nat) : (s.setKeyIn l n).sp = s.sp := rfl
@[simp] theorem State.setKeyIn_dt (l : List KeySample) (n : Nat) : (s.setKeyIn l n).dt = s.dt := rfl
@[simp] theorem State.setKeyIn_st (l : List KeySample) (n : Nat) : (s.setKeyIn l n).st = s.st := rfl
@[simp] theorem State.setKeyIn_mem (l : List KeySample) (n : Nat) : (s.setKeyIn l n).mem = s.mem := rfl
@[simp] theorem State.setKeyIn_fb (l : List KeySample) (n : Nat) : (s.setKeyIn l n).fb = s.fb := rfl
@[simp] theorem State.setKeyIn_keys (l : List KeySample) (n : Nat) : (s.setKeyIn l n).keys = s.keys := rfl
@[simp] theorem State.setKeyIn_lastKey (l : List KeySample) (n : Nat) : (s.setKeyIn l n).lastKey = s.lastKey := rfl
@[simp] theorem State.setKeyIn_exit (l : List KeySample) (n : Nat) : (s.setKeyIn l n).exit = s.exit := rfl
@[simp] theorem State.setKeyIn_fault (l : List KeySample) (n : Nat) : (s.setKeyIn l n).fault = s.fault := rfl
@[simp] theorem State.setKeyIn_schedule (l : List KeySample) (n : Nat) : (s.setKeyIn l n).schedule = s.schedule := rfl
@[simp] theorem State.setKeyIn_turns (l : List KeySample) (n : Nat) : (s.setKeyIn l n).turns = s.turns := rfl
@[simp] theorem State.setKeyIn_keyIn (l : List KeySample) (n : Nat) : (s.setKeyIn l n).keyIn = l := rfl
@[simp] theorem State.setKeyIn_randIn (l : List KeySample) (n : Nat) : (s.setKeyIn l n).randIn = s.randIn := rfl
@[simp] theorem State.setKeyIn_draws (l : List KeySample) (n : Nat) : (s.setKeyIn l n).draws = n := rfl
@[simp] theorem State.setKeyIn_frameOut (l : List KeySample) (n : Nat) : (s.setKeyIn l n).frameOut = s.frameOut := rfl
@[simp] theorem State.setKeyIn_reg (l : List KeySample) (n : Nat) (q : RegIdx) : (s.setKeyIn l n).reg q = s.reg q := rfl
@[simp] theorem State.setKeyIn_key (l : List KeySample) (n : Nat) (q : KeyIdx) : (s.setKeyIn l n).key q = s.key q := rfl
@[simp] theorem State.setKeyIn_fetch (l : List KeySample) (n : Nat) : (s.setKeyIn l n).fetch? = s.fetch? := rfl

@[simp] theorem State.setRandIn_x (l : List Byte) (n : Nat) : (s.setRandIn l n).x = s.x := rfl
@[simp] theorem State.setRandIn_I (l : List Byte) (n : Nat) : (s.setRandIn l n).I = s.I := rfl
@[simp] theorem State.setRandIn_pc (l : List Byte) (n : Nat) : (s.setRandIn l n).pc = s.pc := rfl
@[simp] theorem State.setRandIn_stack (l : List Byte) (n : Nat) : (s.setRandIn l n).stack = s.stack := rfl
@[simp] theorem State.setRandIn_sp (l : List Byte) (n : Nat) : (s.setRandIn l n).sp = s.sp := rfl
@[simp] theorem State.setRandIn_dt (l : List Byte) (n : Nat) : (s.setRandIn l n).dt = s.dt := rfl
@[simp] theorem State.setRandIn_st (l : List Byte) (n : Nat) : (s.setRandIn l n).st = s.st := rfl
@[simp] theorem State.setRandIn_mem (l : List Byte) (n : Nat) : (s.setRandIn l n).mem = s.mem := rfl
@[simp] theorem State.setRandIn_fb (l : List Byte) (n : Nat) : (s.setRandIn l n).fb = s.fb := rfl
@[simp] theorem State.setRandIn_keys (l : List Byte) (n : Nat) : (s.setRandIn l n).keys = s.keys := rfl
@[simp] theorem State.setRandIn_lastKey (l : List Byte) (n : Nat) : (s.setRandIn l n).lastKey = s.lastKey := rfl
@[simp] theorem State.setRandIn_exit (l : List Byte) (n : Nat) : (s.setRandIn l n).exit = s.exit := rfl
@[simp] theorem State.setRandIn_fault (l : List Byte) (n : Nat) : (s.setRandIn l n).fault = s.fault := rfl
@[simp] theorem State.setRandIn_schedule (l : List Byte) (n : Nat) : (s.setRandIn l n).schedule = s.schedule := rfl
@[simp] theorem State.setRandIn_turns (l : List Byte) (n : Nat) : (s.setRandIn l n).turns = s.turns := rfl
@[simp] theorem State.setRandIn_keyIn (l : List Byte) (n : Nat) : (s.setRandIn l n).keyIn = s.keyIn := rfl
@[simp] theorem State.setRandIn_randIn (l : List Byte) (n : Nat) : (s.setRandIn l n).randIn = l := rfl
@[simp] theorem State.setRandIn_draws (l : List Byte) (n : Nat) : (s.setRandIn l n).draws = n := rfl
@[simp] theorem State.setRandIn_frameOut (l : List Byte) (n : Nat) : (s.setRandIn l n).frameOut = s.frameOut := rfl
@[simp] theorem State.setRandIn_reg (l : List Byte) (n : Nat) (q : RegIdx) : (s.setRandIn l n).reg q = s.reg q := rfl
@[simp] theorem State.setRandIn_key (l : List Byte) (n : Nat) (q : KeyIdx) : (s.setRandIn l n).key q = s.key q := rfl
@[simp] theorem State.setRandIn_fetch (l : List Byte) (n : Nat) : (s.setRandIn l n).fetch? = s.fetch? := rfl

@[simp] theorem State.setSchedule_x (l : List Agent) : (s.setSchedule l).x = s.x := rfl
@[simp] theorem State.setSchedule_I (l : List Agent) : (s.setSchedule l).I = s.I := rfl
@[simp] theorem State.setSchedule_pc (l : List Agent) : (s.setSchedule l).pc = s.pc := rfl
@[simp] theorem State.setSchedule_stack (l : List Agent) : (s.setSchedule l).stack = s.stack := rfl
@[simp] theorem State.setSchedule_sp (l : List Agent) : (s.setSchedule l).sp = s.sp := rfl
@[simp] theorem State.setSchedule_dt (l : List Agent) : (s.setSchedule l).dt = s.dt := rfl
@[simp] theorem State.setSchedule_st (l : List Agent) : (s.setSchedule l).st = s.st := rfl
@[simp] theorem State.setSchedule_mem (l : List Agent) : (s.setSchedule l).mem = s.mem := rfl
@[simp] theorem State.setSchedule_fb (l : List Agent) : (s.setSchedule l).fb = s.fb := rfl
@[simp] theorem State.setSchedule_keys (l : List Agent) : (s.setSchedule l).keys = s.keys := rfl
@[simp] theorem State.setSchedule_lastKey (l : List Agent) : (s.setSchedule l).lastKey = s.lastKey := rfl
@[simp] theorem State.setSchedule_exit (l : List Agent) : (s.setSchedule l).exit = s.exit := rfl
@[simp] theorem State.setSchedule_fault (l : List Agent) : (s.setSchedule l).fault = s.fault := rfl
@[simp] theorem State.setSchedule_schedule (l : List Agent) : (s.setSchedule l).schedule = l := rfl
@[simp] theorem State.setSchedule_turns (l : List Agent) : (s.setSchedule l).turns = s.turns := rfl
@[simp] theorem State.setSchedule_keyIn (l : List Agent) : (s.setSchedule l).keyIn = s.keyIn := rfl
@[simp] theorem State.setSchedule_randIn (l : List Agent) : (s.setSchedule l).randIn = s.randIn := rfl
@[simp] theorem State.setSchedule_draws (l : List Agent) : (s.setSchedule l).draws = s.draws := rfl
@[simp] theorem State.setSchedule_frameOut (l : List Agent) : (s.setSchedule l).frameOut = s.frameOut := rfl
@[simp] theorem State.setSchedule_reg (l : List Agent) (q : RegIdx) : (s.setSchedule l).reg q = s.reg q := rfl
@[simp] theorem State.setSchedule_key (l : List Agent) (q : KeyIdx) : (s.setSchedule l).key q = s.key q := rfl
@[simp] theorem State.setSchedule_fetch (l : List Agent) : (s.setSchedule l).fetch? = s.fetch? := rfl

@[simp] theorem State.setFrameOut_x (f : Snapshot) : (s.setFrameOut f).x = s.x := rfl
@[simp] theorem State.setFrameOut_I (f : Snapshot) : (s.setFrameOut f).I = s.I := rfl
@[simp] theorem State.setFrameOut_pc (f : Snapshot) : (s.setFrameOut f).pc = s.pc := rfl
@[simp] theorem State.setFrameOut_stack (f : Snapshot) : (s.setFrameOut f).stack = s.stack := rfl
@[simp] theorem State.setFrameOut_sp (f : Snapshot) : (s.setFrameOut f).sp = s.sp := rfl
@[simp] theorem State.setFrameOut_dt (f : Snapshot) : (s.setFrameOut f).dt = s.dt := rfl
@[simp] theorem State.setFrameOut_st (f : Snapshot) : (s.setFrameOut f).st = s.st := rfl
@[simp] theorem State.setFrameOut_mem (f : Snapshot) : (s.setFrameOut f).mem = s.mem := rfl
@[simp] theorem State.setFrameOut_fb (f : Snapshot) : (s.setFrameOut f).fb = s.fb := rfl
@[simp] theorem State.setFrameOut_keys (f : Snapshot) : (s.setFrameOut f).keys = s.keys := rfl
@[simp] theorem State.setFrameOut_lastKey (f : Snapshot) : (s.setFrameOut f).lastKey = s.lastKey := rfl
@[simp] theorem State.setFrameOut_exit (f : Snapshot) : (s.setFrameOut f).exit = s.exit := rfl
@[simp] theorem State.setFrameOut_fault (f : Snapshot) : (s.setFrameOut f).fault = s.fault := rfl
@[simp] theorem State.setFrameOut_schedule (f : Snapshot) : (s.setFrameOut f).schedule = s.schedule := rfl
@[simp] theorem State.setFrameOut_turns (f : Snapshot) : (s.setFrameOut f).turns = s.turns := rfl
@[simp] theorem State.setFrameOut_keyIn (f : Snapshot) : (s.setFrameOut f).keyIn = s.keyIn := rfl
@[simp] theorem State.setFrameOut_randIn (f : Snapshot) : (s.setFrameOut f).randIn = s.randIn := rfl
@[simp] theorem State.setFrameOut_draws (f : Snapshot) : (s.setFrameOut f).draws = s.draws := rfl
@[simp] theorem State.setFrameOut_frameOut (f : Snapshot) : (s.setFrameOut f).frameOut = some f := rfl
@[simp] theorem State.setFrameOut_reg (f : Snapshot) (q : RegIdx) : (s.setFrameOut f).reg q = s.reg q := rfl
@[simp] theorem State.setFrameOut_key (f : Snapshot) (q : KeyIdx) : (s.setFrameOut f).key q = s.key q := rfl
@[simp] theorem State.setFrameOut_fetch (f : Snapshot) : (s.setFrameOut f).fetch? = s.fetch? := rfl

@[simp] theorem State.setFirstRegs_x (vs : List Byte) : (s.setFirstRegs vs).x = writeRegs s.x 0 vs := rfl
@[simp] theorem State.setFirstRegs_I (vs : List Byte) : (s.setFirstRegs vs).I = s.I := rfl
@[simp] theorem State.setFirstRegs_pc (vs : List Byte) : (s.setFirstRegs vs).pc = s.pc := rfl
@[simp] theorem State.setFirstRegs_stack (vs : List Byte) : (s.setFirstRegs vs).stack = s.stack := rfl
@[simp] theorem State.setFirstRegs_sp (vs : List Byte) : (s.setFirstRegs vs).sp = s.sp := rfl
@[simp] theorem State.setFirstRegs_dt (vs : List Byte) : (s.setFirstRegs vs).dt = s.dt := rfl
@[simp] theorem State.setFirstRegs_st (vs : List Byte) : (s.setFirstRegs vs).st = s.st := rfl
@[simp] theorem State.setFirstRegs_mem (vs : List Byte) : (s.setFirstRegs vs).mem = s.mem := rfl
@[simp] theorem State.setFirstRegs_fb (vs : List Byte) : (s.setFirstRegs vs).fb = s.fb := rfl
@[simp] theorem State.setFirstRegs_keys (vs : List Byte) : (s.setFirstRegs vs).keys = s.keys := rfl
@[simp] theorem State.setFirstRegs_lastKey (vs : List Byte) : (s.setFirstRegs vs).lastKey = s.lastKey := rfl
@[simp] theorem State.setFirstRegs_exit (vs : List Byte) : (s.setFirstRegs vs).exit = s.exit := rfl
@[simp] theorem State.setFirstRegs_fault (vs : List Byte) : (s.setFirstRegs vs).fault = s.fault := rfl
@[simp] theorem State.setFirstRegs_schedule (vs : List Byte) : (s.setFirstRegs vs).schedule = s.schedule := rfl
@[simp] theorem State.setFirstRegs_turns (vs : List Byte) : (s.setFirstRegs vs).turns = s.turns := rfl
@[simp] theorem State.setFirstRegs_keyIn (vs : List Byte) : (s.setFirstRegs vs).keyIn = s.keyIn := rfl
@[simp] theorem State.setFirstRegs_randIn (vs : List Byte) : (s.setFirstRegs vs).randIn = s.randIn := rfl
@[simp] theorem State.setFirstRegs_draws (vs : List Byte) : (s.setFirstRegs vs).draws = s.draws := rfl
@[simp] theorem State.setFirstRegs_frameOut (vs : List Byte) : (s.setFirstRegs vs).frameOut = s.frameOut := rfl
@[simp] theorem State.setFirstRegs_key (vs : List Byte) (q : KeyIdx) : (s.setFirstRegs vs).key q = s.key q := rfl
@[simp] theorem State.setFirstRegs_fetch (vs : List Byte) : (s.setFirstRegs vs).fetch? = s.fetch? := rfl

@[simp] theorem State.advance_x (n : Nat) : (s.advance n).x = s.x := rfl
@[simp] theorem State.advance_I (n : Nat) : (s.advance n).I = s.I := rfl
@[simp] theorem State.advance_pc (n : Nat) : (s.advance n).pc = s.pc + BitVec.ofNat 16 n := rfl
@[simp] theorem State.advance_stack (n : Nat) : (s.advance n).stack = s.stack := rfl
@[simp] theorem State.advance_sp (n : Nat) : (s.advance n).sp = s.sp := rfl
@[simp] theorem State.advance_dt (n : Nat) : (s.advance n).dt = s.dt := rfl
@[simp] theorem State.advance_st (n : Nat) : (s.advance n).st = s.st := rfl
@[simp] theorem State.advance_mem (n : Nat) : (s.advance n).mem = s.mem := rfl
@[simp] theorem State.advance_fb (n : Nat) : (s.advance n).fb = s.fb := rfl
@[simp] theorem State.advance_keys (n : Nat) : (s.advance n).keys = s.keys := rfl
@[simp] theorem State.advance_lastKey (n : Nat) : (s.advance n).lastKey = s.lastKey := rfl
@[simp] theorem State.advance_exit (n : Nat) : (s.advance n).exit = s.exit := rfl
@[simp] theorem State.advance_fault (n : Nat) : (s.advance n).fault = s.fault := rfl
@[simp] theorem State.advance_schedule (n : Nat) : (s.advance n).schedule = s.schedule := rfl
@[simp] theorem State.advance_turns (n : Nat) : (s.advance n).turns = s.turns := rfl
@[simp] theorem State.advance_keyIn (n : Nat) : (s.advance n).keyIn = s.keyIn := rfl
@[simp] theorem State.advance_randIn (n : Nat) : (s.advance n).randIn = s.randIn := rfl
@[simp] theorem State.advance_draws (n : Nat) : (s.advance n).draws = s.draws := rfl
@[simp] theorem State.advance_frameOut (n : Nat) : (s.advance n).frameOut = s.frameOut := rfl
@[simp] theorem State.advance_reg (n : Nat) (q : RegIdx) : (s.advance n).reg q = s.reg q := rfl
@[simp] theorem State.advance_key (n : Nat) (q : KeyIdx) : (s.advance n).key q = s.key q := rfl

@[simp] theorem State.raise_x (c : FaultCause) (n : Nat) : (s.raise c n).x = s.x := rfl
@[simp] theorem State.raise_I (c : FaultCause) (n : Nat) : (s.raise c n).I = s.I := rfl
@[simp] theorem State.raise_pc (c : FaultCause) (n : Nat) : (s.raise c n).pc = s.pc := rfl
@[simp] theorem State.raise_stack (c : FaultCause) (n : Nat) : (s.raise c n).stack = s.stack := rfl
@[simp] theorem State.raise_sp (c : FaultCause) (n : Nat) : (s.raise c n).sp = s.sp := rfl
@[simp] theorem State.raise_dt (c : FaultCause) (n : Nat) : (s.raise c n).dt = s.dt := rfl
@[simp] theorem State.raise_st (c : FaultCause) (n : Nat) : (s.raise c n).st = s.st := rfl
@[simp] theorem State.raise_mem (c : FaultCause) (n : Nat) : (s.raise c n).mem = s.mem := rfl
@[simp] theorem State.raise_fb (c : FaultCause) (n : Nat) : (s.raise c n).fb = s.fb := rfl
@[simp] theorem State.raise_keys (c : FaultCause) (n : Nat) : (s.raise c n).keys = s.keys := rfl
@[simp] theorem State.raise_lastKey (c : FaultCause) (n : Nat) : (s.raise c n).lastKey = s.lastKey := rfl
@[simp] theorem State.raise_exit (c : FaultCause) (n : Nat) : (s.raise c n).exit = s.exit := rfl
@[simp] theorem State.raise_fault (c : FaultCause) (n : Nat) : (s.raise c n).fault = some (s.faultRecord c n) := rfl
@[simp] theorem State.raise_schedule (c : FaultCause) (n : Nat) : (s.raise c n).schedule = s.schedule := rfl
@[simp] theorem State.raise_turns (c : FaultCause) (n : Nat) : (s.raise c n).turns = s.turns := rfl
@[simp] theorem State.raise_keyIn (c : FaultCause) (n : Nat) : (s.raise c n).keyIn = s.keyIn := rfl
@[simp] theorem State.raise_randIn (c : FaultCause) (n : Nat) : (s.raise c n).randIn = s.randIn := rfl
@[simp] theorem State.raise_draws (c : FaultCause) (n : Nat) : (s.raise c n).draws = s.draws := rfl
@[simp] theorem State.raise_frameOut (c : FaultCause) (n : Nat) : (s.raise c n).frameOut = s.frameOut := rfl
@[simp] theorem State.raise_reg (c : FaultCause) (n : Nat) (q : RegIdx) : (s.raise c n).reg q = s.reg q := rfl
@[simp] theorem State.raise_key (c : FaultCause) (n : Nat) (q : KeyIdx) : (s.raise c n).key q = s.key q := rfl
@[simp] theorem State.raise_fetch (c : FaultCause) (n : Nat) : (s.raise c n).fetch? = s.fetch? := rfl

@[simp] theorem State.popTurn_x : (s.popTurn).x = s.x := rfl
@[simp] theorem State.popTurn_I : (s.popTurn).I = s.I := rfl
@[simp] theorem State.popTurn_pc : (s.popTurn).pc = s.pc := rfl
@[simp] theorem State.popTurn_stack : (s.popTurn).stack = s.stack := rfl
@[simp] theorem State.popTurn_sp : (s.popTurn).sp = s.sp := rfl
@[simp] theorem State.popTurn_dt : (s.popTurn).dt = s.dt := rfl
@[simp] theorem State.popTurn_st : (s.popTurn).st = s.st := rfl
@[simp] theorem State.popTurn_mem : (s.popTurn).mem = s.mem := rfl
@[simp] theorem State.popTurn_fb : (s.popTurn).fb = s.fb := rfl
@[simp] theorem State.popTurn_keys : (s.popTurn).keys = s.keys := rfl
@[simp] theorem State.popTurn_lastKey : (s.popTurn).lastKey = s.lastKey := rfl
@[simp] theorem State.popTurn_exit : (s.popTurn).exit = s.exit := rfl
@[simp] theorem State.popTurn_fault : (s.popTurn).fault = s.fault := rfl
@[simp] theorem State.popTurn_schedule : (s.popTurn).schedule = s.schedule.tail := rfl
@[simp] theorem State.popTurn_turns : (s.popTurn).turns = s.turnsAfter := rfl
@[simp] theorem State.popTurn_keyIn : (s.popTurn).keyIn = s.keyIn := rfl
@[simp] theorem State.popTurn_randIn : (s.popTurn).randIn = s.randIn := rfl
@[simp] theorem State.popTurn_draws : (s.popTurn).draws = s.draws := rfl
@[simp] theorem State.popTurn_frameOut : (s.popTurn).frameOut = s.frameOut := rfl
@[simp] theorem State.popTurn_reg (q : RegIdx) : (s.popTurn).reg q = s.reg q := rfl
@[simp] theorem State.popTurn_key (q : KeyIdx) : (s.popTurn).key q = s.key q := rfl
@[simp] theorem State.popTurn_fetch : (s.popTurn).fetch? = s.fetch? := rfl

@[simp] theorem State.skipIf_x (b : Bool) : (s.skipIf b).x = s.x := rfl
@[simp] theorem State.skipIf_I (b : Bool) : (s.skipIf b).I = s.I := rfl
@[simp] theorem State.skipIf_pc (b : Bool) : (s.skipIf b).pc = s.pc + BitVec.ofNat 16 (if b then 4 else 2) := rfl
@[simp] theorem State.skipIf_stack (b : Bool) : (s.skipIf b).stack = s.stack := rfl
@[simp] theorem State.skipIf_sp (b : Bool) : (s.skipIf b).sp = s.sp := rfl
@[simp] theorem State.skipIf_dt (b : Bool) : (s.skipIf b).dt = s.dt := rfl
@[simp] theorem State.skipIf_st (b : Bool) : (s.skipIf b).st = s.st := rfl
@[simp] theorem State.skipIf_mem (b : Bool) : (s.skipIf b).mem = s.mem := rfl
@[simp] theorem State.skipIf_fb (b : Bool) : (s.skipIf b).fb = s.fb := rfl
@[simp] theorem State.skipIf_keys (b : Bool) : (s.skipIf b).keys = s.keys := rfl
@[simp] theorem State.skipIf_lastKey (b : Bool) : (s.skipIf b).lastKey = s.lastKey := rfl
@[simp] theorem State.skipIf_exit (b : Bool) : (s.skipIf b).exit = s.exit := rfl
@[simp] theorem State.skipIf_fault (b : Bool) : (s.skipIf b).fault = s.fault := rfl
@[simp] theorem State.skipIf_schedule (b : Bool) : (s.skipIf b).schedule = s.schedule := rfl
@[simp] theorem State.skipIf_turns (b : Bool) : (s.skipIf b).turns = s.turns := rfl
@[simp] theorem State.skipIf_keyIn (b : Bool) : (s.skipIf b).keyIn = s.keyIn := rfl
@[simp] theorem State.skipIf_randIn (b : Bool) : (s.skipIf b).randIn = s.randIn := rfl
@[simp] theorem State.skipIf_draws (b : Bool) : (s.skipIf b).draws = s.draws := rfl
@[simp] theorem State.skipIf_frameOut (b : Bool) : (s.skipIf b).frameOut = s.frameOut := rfl
@[simp] theorem State.skipIf_reg (b : Bool) (q : RegIdx) : (s.skipIf b).reg q = s.reg q := rfl
@[simp] theorem State.skipIf_key (b : Bool) (q : KeyIdx) : (s.skipIf b).key q = s.key q := rfl

end Sys2Proof.Machine
end

