-- ==== Sys2Proof/Laws/Boot.lean ====
section
/-! SUPPORT. The fields of the reset state, and the two outcomes of the `HOST` agent's step. -/

namespace Sys2Proof.Machine

/-! ## The reset state, field by field (R27) -/

@[simp] theorem State.reset_x : State.reset.x = Vector.replicate 16 0 := rfl
@[simp] theorem State.reset_I : State.reset.I = 0 := rfl
@[simp] theorem State.reset_pc : State.reset.pc = 0x200 := rfl
@[simp] theorem State.reset_stack : State.reset.stack = Vector.replicate Config.stackDepth 0 := rfl
@[simp] theorem State.reset_sp : State.reset.sp = 0 := rfl
@[simp] theorem State.reset_dt : State.reset.dt = 0 := rfl
@[simp] theorem State.reset_st : State.reset.st = 0 := rfl
@[simp] theorem State.reset_mem : State.reset.mem = [] := rfl
@[simp] theorem State.reset_fb : State.reset.fb = Vector.replicate Config.rows 0 := rfl
@[simp] theorem State.reset_keys : State.reset.keys = Vector.replicate 16 false := rfl
@[simp] theorem State.reset_lastKey : State.reset.lastKey = none := rfl
@[simp] theorem State.reset_exit : State.reset.exit = false := rfl
@[simp] theorem State.reset_fault : State.reset.fault = none := rfl
@[simp] theorem State.reset_schedule : State.reset.schedule = [] := rfl
@[simp] theorem State.reset_turns : State.reset.turns = 0 := rfl
@[simp] theorem State.reset_keyIn : State.reset.keyIn = [] := rfl
@[simp] theorem State.reset_randIn : State.reset.randIn = [] := rfl
@[simp] theorem State.reset_draws : State.reset.draws = 0 := rfl
@[simp] theorem State.reset_frameOut : State.reset.frameOut = none := rfl

@[simp] theorem State.reset_reg (r : RegIdx) : State.reset.reg r = 0 := by revert r; decide

@[simp] theorem State.reset_key (k : KeyIdx) : State.reset.key k = false := by revert k; decide

/-! ## The load (R264) -/

/-- An image that fits is written over the reset contents at 0x200, and nothing else differs from the reset state. -/
theorem State.boot_fits {image : List Byte} (h : Config.loadBase + image.length ≤ Params.memSize) :
    State.boot image = State.reset.setMem (Memory.writeBytes [] 0x200 image) := by
  unfold State.boot
  rw [if_pos ((inRange_eq _ _).2 h)]
  rfl

/-- An image that does not fit leaves memory free and a `LOAD` record, and nothing else differs from the reset state. -/
theorem State.boot_refuses {image : List Byte} (h : Params.memSize < Config.loadBase + image.length) :
    State.boot image =
      (State.reset.setMem (refusedLoadMemory image)).setFault ⟨.bounds, .load, 0x200, none, image.length⟩ := by
  unfold State.boot
  rw [if_neg (fun hin => by have := (inRange_eq _ _).1 hin; omega)]
  rfl

/-- Memory after a refused load is in its canonical form too. -/
theorem wf_refusedLoadMemory (image : List Byte) : (refusedLoadMemory image).wf = true := by
  unfold refusedLoadMemory
  exact Memory.wf_writeBytes (m := []) rfl _ (by simp)

end Sys2Proof.Machine
end

