-- ==== Sys2Proof/Laws/Ops.lean ====
section
/-! SUPPORT. One lemma per shared operation, saying once what it does: registers, stack, operand forms, fetch, faults and
the ports. -/

namespace Sys2Proof.Machine

/-! ## Registers -/

theorem State.reg_setReg (s : State) (r : RegIdx) (v : Byte) (q : RegIdx) :
    (s.setReg r v).reg q = if q = r then v else s.reg q := by
  simp only [State.reg, State.setReg_x, Vector.getElem_set]
  grind

@[simp] theorem State.reg_setReg_self (s : State) (r : RegIdx) (v : Byte) : (s.setReg r v).reg r = v := by
  simp [State.reg_setReg]

theorem State.reg_setReg_ne (s : State) {r q : RegIdx} (v : Byte) (h : q ≠ r) : (s.setReg r v).reg q = s.reg q := by
  simp [State.reg_setReg, h]

@[simp] theorem State.length_firstRegs (s : State) (n : Nat) (h : n ≤ 16) : (s.firstRegs n).length = n := by
  simp [State.firstRegs, h]

theorem State.getElem_firstRegs (s : State) (n k : Nat) (h : k < (s.firstRegs n).length) (hk : k < 16) :
    (s.firstRegs n)[k] = s.reg ⟨k, hk⟩ := by
  simp [State.firstRegs, State.reg]

theorem getElem_writeRegs (regs : Vector Byte 16) (k : Nat) (vs : List Byte) (q : Nat) (hq : q < 16) :
    (writeRegs regs k vs)[q] = if h : k ≤ q ∧ q - k < vs.length then vs[q - k]'h.2 else regs[q] := by
  induction vs generalizing regs k with
  | nil => simp [writeRegs]
  | cons v rest ih =>
    simp only [writeRegs, ih, List.length_cons, Vector.getElem_setIfInBounds]
    by_cases hb : k = q
    · subst hb; simp
    · by_cases h1 : k ≤ q
      · obtain ⟨j, rfl⟩ : ∃ j, q = k + 1 + j := ⟨q - k - 1, by omega⟩
        have e1 : k + 1 + j - (k + 1) = j := by omega
        have e2 : k + 1 + j - k = j + 1 := by omega
        simp only [e1, e2, List.getElem_cons_succ]
        simp [hb]
        grind
      · have h2 : ¬ k + 1 ≤ q := by omega
        simp [h1, h2, hb]

/-- Register q after a list of bytes was loaded: the q-th byte below its length, the old value above (R177). -/
theorem State.reg_setFirstRegs (s : State) (vs : List Byte) (q : RegIdx) :
    (s.setFirstRegs vs).reg q = if h : q.val < vs.length then vs[q.val] else s.reg q := by
  simp only [State.reg, State.setFirstRegs_x, getElem_writeRegs, Nat.zero_le, Nat.sub_zero, true_and]

/-! ## The stack -/

/-- A push: refused exactly when the stack is full, else `a` is the newest entry and the older ones stay (R18, R103). -/
theorem State.push?_cases (s : State) (a : Addr) :
    (s.sp.val = Config.stackDepth ∧ s.push? a = none) ∨
    ∃ h : s.sp.val < Config.stackDepth, ∃ t, s.push? a = some t ∧ t = s.setStack t.stack t.sp ∧
      t.sp.val = s.sp.val + 1 ∧ t.stack[s.sp.val] = a ∧
      ∀ k : Fin Config.stackDepth, k.val < s.sp.val → t.stack[k.val] = s.stack[k.val] := by
  unfold State.push?
  by_cases h : s.sp.val < Config.stackDepth
  · refine .inr ⟨h, _, dif_pos h, rfl, rfl, by simp, ?_⟩
    intro k hk
    simp only [State.setStack_stack, Vector.getElem_set]
    rw [if_neg (by omega)]
  · refine .inl ⟨?_, dif_neg h⟩
    have := s.sp.isLt
    omega

/-- A pop: refused exactly when the stack is empty, else the newest entry, which is no longer valid (R18, R101). -/
theorem State.pop?_cases (s : State) :
    (s.sp.val = 0 ∧ s.pop? = none) ∨
    ∃ k : Fin Config.stackDepth, ∃ sp : Fin (Config.stackDepth + 1), s.sp.val = k.val + 1 ∧ sp.val = k.val ∧
      s.pop? = some (s.stack[k.val], s.setStack s.stack sp) := by
  unfold State.pop? State.top?
  by_cases h : s.sp.val = 0
  · exact .inl ⟨h, by simp [h]⟩
  · refine .inr ⟨⟨s.sp.val - 1, by have := s.sp.isLt; omega⟩, Fin.castSucc ⟨s.sp.val - 1, by have := s.sp.isLt; omega⟩,
      ?_, rfl, ?_⟩
    · simp; omega
    · simp [h]

/-! ## Fetch and faults -/

theorem State.fetch?_cases (s : State) :
    (s.pc.toNat + 2 ≤ Params.memSize ∧ s.fetch? = some (s.mem.read16 s.pc.toNat)) ∨
    (Params.memSize < s.pc.toNat + 2 ∧ s.fetch? = none) := by
  unfold State.fetch?
  by_cases h : s.pc.toNat + 2 ≤ Params.memSize
  · exact .inl ⟨h, by simp [inRange_eq, h]⟩
  · exact .inr ⟨by omega, by simp [inRange_eq, h]⟩

/-! ## Operand forms -/

/-- The bytes at `I`: all of them, or none when they do not lie below `MEM_SIZE` (R41, R150). -/
theorem State.bytesAtI?_cases (s : State) (n : Nat) :
    ((n = 0 ∨ s.I.toNat + n ≤ Params.memSize) ∧ s.bytesAtI? n = some (s.mem.readBytes s.I.toNat n)) ∨
    (n ≠ 0 ∧ Params.memSize < s.I.toNat + n ∧ s.bytesAtI? n = none) := by
  unfold State.bytesAtI?
  by_cases h : n = 0 ∨ s.I.toNat + n ≤ Params.memSize
  · exact .inl ⟨h, by simp [inRange_eq, h]⟩
  · refine .inr ⟨fun h0 => h (.inl h0), by omega, by simp only [inRange_eq, h, if_false]⟩

/-- A store at `I`: all of it, or nothing when it does not fit below `MEM_SIZE` (R41). -/
theorem State.storeAtI?_cases (s : State) (vs : List Byte) :
    (s.I.toNat + vs.length ≤ Params.memSize ∧ s.storeAtI? vs = some (s.setMem (s.mem.writeBytes s.I.toNat vs))) ∨
    (Params.memSize < s.I.toNat + vs.length ∧ s.storeAtI? vs = none) := by
  unfold State.storeAtI?
  by_cases h : s.I.toNat + vs.length ≤ Params.memSize
  · exact .inl ⟨h, by simp [inRange_eq, h]⟩
  · exact .inr ⟨by omega, by simp [inRange_eq, h]⟩

@[simp] theorem length_decimalDigits (v : Byte) : (decimalDigits v).length = 3 := rfl

/-- `IndexAdd` under `wrap` always answers, reduced `mod 65536`. -/
theorem indexAdd_wrap (i : Addr) (v : Nat) : indexAdd .wrap i v = .ok (BitVec.ofNat 16 (i.toNat + v)) := by
  unfold indexAdd; split <;> rfl

theorem keyIndex?_cases (v : Byte) :
    (∃ k : KeyIdx, v.toNat = k.val ∧ keyIndex? v = some k) ∨ (15 < v.toNat ∧ keyIndex? v = none) := by
  unfold keyIndex?
  by_cases h : v.toNat < 16
  · exact .inl ⟨⟨v.toNat, h⟩, rfl, dif_pos h⟩
  · exact .inr ⟨by omega, dif_neg h⟩

@[simp] theorem toNat_zext16 (nnn : BitVec 12) : (zext16 nnn).toNat = nnn.toNat := by
  simp [zext16]; omega

@[simp] theorem toNat_keyByte (k : KeyIdx) : (keyByte k).toNat = k.val := by
  simp [keyByte]; omega

/-! ## The ports -/

/-- A draw of `key_in` touches nothing but that port. -/
theorem State.drawKey_frame (s : State) : s.drawKey.2 = s.setKeyIn s.drawKey.2.keyIn s.drawKey.2.draws := by
  unfold State.drawKey; split <;> rfl

/-- A draw of `rand_in` touches nothing but that port. -/
theorem State.drawRand_frame (s : State) : s.drawRand.2 = s.setRandIn s.drawRand.2.randIn s.drawRand.2.draws := by
  unfold State.drawRand; split <;> rfl

/-- What a sample does (R225): the exit request; nothing, when the key is the latched one; else the latched key is
released, the new one pressed and latched. -/
theorem State.applySample_cases (s : State) (v : KeySample) :
    (v = .exit ∧ s.applySample v = s.setExit) ∨
    (v ≠ .exit ∧ sampledKey v = s.lastKey ∧ s.applySample v = s) ∨
    (v ≠ .exit ∧ sampledKey v ≠ s.lastKey ∧
      s.applySample v = s.setKeys (pressKey (releaseKey s.keys s.lastKey) (sampledKey v)) (sampledKey v)) := by
  unfold State.applySample
  by_cases h : v = .exit
  · exact .inl ⟨h, if_pos h⟩
  · by_cases h2 : sampledKey v = s.lastKey
    · exact .inr (.inl ⟨h, h2, by rw [if_neg h, if_pos h2]⟩)
    · exact .inr (.inr ⟨h, h2, by rw [if_neg h, if_neg h2]⟩)

theorem getElem_releaseKey (keys : KeyFlags) (p : Option KeyIdx) (q : KeyIdx) :
    (releaseKey keys p)[q.val] = if p = some q then false else keys[q.val] := by
  cases p with
  | none => simp [releaseKey]
  | some p => simp only [releaseKey, Vector.getElem_set]; grind

theorem getElem_pressKey (keys : KeyFlags) (p : Option KeyIdx) (q : KeyIdx) :
    (pressKey keys p)[q.val] = if p = some q then true else keys[q.val] := by
  cases p with
  | none => simp [pressKey]
  | some p => simp only [pressKey, Vector.getElem_set]; grind

/-- `Sample()` touches nothing but the input state, `EXIT` and its port. -/
theorem State.sample_frame (s : State) :
    ∃ keys last ex, s.sample.2 = { s with
      keys := keys, lastKey := last, exit := ex, keyIn := s.drawKey.2.keyIn, draws := s.drawKey.2.draws } := by
  have hd := s.drawKey_frame
  have h2 : s.sample.2 = s.drawKey.2.applySample s.drawKey.1 := rfl
  rw [h2]
  rcases State.applySample_cases s.drawKey.2 s.drawKey.1 with ⟨_, h⟩ | ⟨_, _, h⟩ | ⟨_, _, h⟩ <;> rw [h] <;>
    generalize s.drawKey.2 = d at * <;> rw [hd]
  · exact ⟨s.keys, s.lastKey, true, rfl⟩
  · exact ⟨s.keys, s.lastKey, s.exit, rfl⟩
  · exact ⟨_, _, s.exit, rfl⟩

end Sys2Proof.Machine
end

