-- ==== Sys2Proof/Laws/Draw.lean ====
section
/-! SUPPORT. What the raster does to one pixel: a toggled pixel, the pixels of one sprite byte, the rows of a sprite. -/

namespace Sys2Proof.Machine

theorem pixel_togglePixel (fb : FrameBuffer) (r r' : Fin 32) (c c' : Fin 64) :
    pixel (togglePixel fb r c) r' c' = (pixel fb r' c' ^^ decide (r' = r ∧ c' = c)) := by
  have hc := c.isLt
  have hc' := c'.isLt
  simp only [pixel, togglePixel, Vector.getElem_set]
  by_cases hr : r' = r
  · subst hr
    rw [if_pos rfl, BitVec.getLsbD_xor, BitVec.getLsbD_shiftLeft, BitVec.getLsbD_one]
    congr 1
    rw [Bool.eq_iff_iff]
    simp [Fin.ext_iff]
    omega
  · have : r.val ≠ r'.val := fun h => hr (Fin.ext h.symm)
    simp [hr, this]

@[simp] theorem pixel_clearedDisplay (r : Fin 32) (c : Fin 64) : pixel clearedDisplay r c = false := by
  simp [pixel, clearedDisplay]

/-- One plotted pixel: it is toggled, no other is, and the hit is kept or is that of this pixel. -/
theorem plot_cases (r : Fin 32) (c : Fin 64) (acc : Raster) :
    (∀ r' c', pixel (plot r c acc).1 r' c' ≠ pixel acc.1 r' c' ↔ r' = r ∧ c' = c) ∧
    ((plot r c acc).2 = true ↔ acc.2 = true ∨ pixel acc.1 r c = true) := by
  refine ⟨fun r' c' => ?_, by simp [plot]⟩
  simp only [plot, pixel_togglePixel]
  cases pixel acc.1 r' c' <;> simp

/-- Pixels j, ..., j + fuel − 1 of a sprite byte: a pixel is toggled exactly when one of them falls on it with a sprite
bit of 1, and the hit is kept or is that of such a pixel that was set. -/
theorem drawPixels_spec (r : Fin 32) (col : Nat) (b : Byte) (fuel j : Nat) (hj : j + fuel ≤ 8) (acc : Raster) :
    (∀ r' c', pixel (drawPixels r col b fuel j acc).1 r' c' ≠ pixel acc.1 r' c' ↔
      r' = r ∧ ∃ k, j ≤ k ∧ k < j + fuel ∧ spritePixel b k = true ∧ drawColumn col k = c') ∧
    ((drawPixels r col b fuel j acc).2 = true ↔
      acc.2 = true ∨ ∃ k, j ≤ k ∧ k < j + fuel ∧ spritePixel b k = true ∧ pixel acc.1 r (drawColumn col k) = true) := by
  induction fuel generalizing j acc with
  | zero =>
    refine ⟨fun r' c' => ?_, ?_⟩ <;> simp only [drawPixels]
    · constructor
      · intro h; exact absurd rfl h
      · rintro ⟨-, k, h1, h2, -⟩; omega
    · constructor
      · exact .inl
      · rintro (h | ⟨k, h1, h2, -⟩)
        · exact h
        · omega
  | succ fuel ih =>
    simp only [drawPixels]
    obtain ⟨hp, hh⟩ := ih (j + 1) (by omega) (if spritePixel b j then plot r (drawColumn col j) acc else acc)
    by_cases hs : spritePixel b j = true
    · rw [if_pos hs] at hp hh ⊢
      obtain ⟨pp, ph⟩ := plot_cases r (drawColumn col j) acc
      -- a later pixel of the byte lies in another column
      have hne : ∀ k, j + 1 ≤ k → k < j + 1 + fuel → drawColumn col k ≠ drawColumn col j := by
        intro k h1 h2 he
        have := congrArg Fin.val he
        simp only [drawColumn] at this
        omega
      refine ⟨fun r' c' => ?_, ?_⟩
      · have h1 := hp r' c'
        have h2 := pp r' c'
        constructor
        · intro h
          by_cases h3 : pixel (plot r (drawColumn col j) acc).1 r' c' = pixel acc.1 r' c'
          · rw [← h3] at h
            obtain ⟨e, k, k1, k2, k3, k4⟩ := h1.1 h
            exact ⟨e, k, by omega, by omega, k3, k4⟩
          · obtain ⟨e, e2⟩ := h2.1 h3
            exact ⟨e, j, by omega, by omega, hs, e2.symm⟩
        · rintro ⟨e, k, k1, k2, k3, k4⟩
          rcases Nat.eq_or_lt_of_le k1 with rfl | hlt
          · have h4 := h2.2 ⟨e, k4.symm⟩
            have h5 : pixel (drawPixels r col b fuel (j + 1) (plot r (drawColumn col j) acc)).1 r' c' =
                pixel (plot r (drawColumn col j) acc).1 r' c' := by
              by_contra h6
              obtain ⟨-, m, m1, m2, m3, m4⟩ := h1.1 h6
              exact hne m m1 m2 (m4.trans k4.symm)
            rw [h5]; exact h4
          · have h4 := h1.2 ⟨e, k, hlt, by omega, k3, k4⟩
            have h5 : pixel (plot r (drawColumn col j) acc).1 r' c' = pixel acc.1 r' c' := by
              by_contra h6
              exact hne k hlt (by omega) (k4.trans (h2.1 h6).2)
            rw [← h5]; exact h4
      · rw [hh, ph]
        have h5 : ∀ k, j + 1 ≤ k → k < j + 1 + fuel →
            pixel (plot r (drawColumn col j) acc).1 r (drawColumn col k) = pixel acc.1 r (drawColumn col k) := by
          intro k h1 h2
          by_contra h6
          exact hne k h1 h2 ((pp _ _).1 h6).2
        constructor
        · rintro ((h | h) | ⟨k, k1, k2, k3, k4⟩)
          · exact .inl h
          · exact .inr ⟨j, by omega, by omega, hs, h⟩
          · exact .inr ⟨k, by omega, by omega, k3, by rw [← h5 k k1 k2]; exact k4⟩
        · rintro (h | ⟨k, k1, k2, k3, k4⟩)
          · exact .inl (.inl h)
          · rcases Nat.eq_or_lt_of_le k1 with rfl | hlt
            · exact .inl (.inr k4)
            · exact .inr ⟨k, hlt, by omega, k3, by rw [h5 k hlt (by omega)]; exact k4⟩
    · rw [if_neg hs] at hp hh ⊢
      have hk : ∀ k, j ≤ k → spritePixel b k = true → j + 1 ≤ k := by
        intro k h1 h2
        rcases Nat.eq_or_lt_of_le h1 with rfl | h3
        · exact absurd h2 hs
        · exact h3
      refine ⟨fun r' c' => ?_, ?_⟩
      · rw [hp]
        constructor
        · rintro ⟨e, k, k1, k2, k3, k4⟩; exact ⟨e, k, by omega, by omega, k3, k4⟩
        · rintro ⟨e, k, k1, k2, k3, k4⟩; exact ⟨e, k, hk k k1 k3, by omega, k3, k4⟩
      · rw [hh]
        constructor
        · rintro (h | ⟨k, k1, k2, k3, k4⟩)
          · exact .inl h
          · exact .inr ⟨k, by omega, by omega, k3, k4⟩
        · rintro (h | ⟨k, k1, k2, k3, k4⟩)
          · exact .inl h
          · exact .inr ⟨k, hk k k1 k3, by omega, k3, k4⟩

/-- Sprite rows i, i + 1, ...: a pixel is toggled exactly when a sprite bit of 1 falls on it, and the hit is kept or is
that of such a pixel that was set. -/
theorem drawRows_spec (row col : Nat) (i : Nat) (sprite : List Byte) (hi : i + sprite.length ≤ 32) (acc : Raster) :
    (∀ r c, pixel (drawRows row col i sprite acc).1 r c ≠ pixel acc.1 r c ↔
      ∃ m, ∃ h : m < sprite.length, ∃ j, j < 8 ∧ spritePixel sprite[m] j = true ∧
        drawRow row (i + m) = r ∧ drawColumn col j = c) ∧
    ((drawRows row col i sprite acc).2 = true ↔
      acc.2 = true ∨ ∃ m, ∃ h : m < sprite.length, ∃ j, j < 8 ∧ spritePixel sprite[m] j = true ∧
        pixel acc.1 (drawRow row (i + m)) (drawColumn col j) = true) := by
  induction sprite generalizing i acc with
  | nil => simp [drawRows]
  | cons b rest ih =>
    simp only [List.length_cons] at hi
    simp only [drawRows]
    obtain ⟨hp, hh⟩ := ih (i + 1) (by omega) (drawPixels (drawRow row i) col b 8 0 acc)
    obtain ⟨pp, ph⟩ := drawPixels_spec (drawRow row i) col b 8 0 (by omega) acc
    generalize hd : drawPixels (drawRow row i) col b 8 0 acc = mid at *
    have hne : ∀ m, m < rest.length → drawRow row (i + 1 + m) ≠ drawRow row i := by
      intro m h he
      have := congrArg Fin.val he
      simp only [drawRow] at this
      omega
    refine ⟨fun r c => ?_, ?_⟩
    · have h1 := hp r c
      have h2 := pp r c
      constructor
      · intro h
        by_cases h3 : pixel mid.1 r c = pixel acc.1 r c
        · rw [← h3] at h
          obtain ⟨m, hm, j, j1, j2, j3, j4⟩ := h1.1 h
          exact ⟨m + 1, by simpa using hm, j, j1, by simpa using j2, by rw [← j3]; congr 1; omega, j4⟩
        · obtain ⟨e, k, -, k2, k3, k4⟩ := h2.1 h3
          exact ⟨0, by simp, k, by omega, by simpa using k3, by simpa using e.symm, k4⟩
      · rintro ⟨m, hm, j, j1, j2, j3, j4⟩
        cases m with
        | zero =>
          have h4 := h2.2 ⟨by simpa using j3.symm, j, by omega, by omega, by simpa using j2, j4⟩
          have h5 : pixel (drawRows row col (i + 1) rest mid).1 r c = pixel mid.1 r c := by
            by_contra h6
            obtain ⟨q, hq, -, -, -, q3, -⟩ := h1.1 h6
            exact hne q hq (q3.trans (by simpa using j3.symm))
          rw [h5]; exact h4
        | succ m =>
          have hm' : m < rest.length := by simpa using hm
          have e3 : drawRow row (i + 1 + m) = r := by rw [← j3]; congr 1; omega
          have h4 := h1.2 ⟨m, hm', j, j1, by simpa using j2, e3, j4⟩
          have h5 : pixel mid.1 r c = pixel acc.1 r c := by
            by_contra h6
            exact hne m hm' (e3.trans (h2.1 h6).1)
          rw [← h5]; exact h4
    · rw [hh, ph]
      have h5 : ∀ m, m < rest.length → ∀ c, pixel mid.1 (drawRow row (i + 1 + m)) c =
          pixel acc.1 (drawRow row (i + 1 + m)) c := by
        intro m hm c
        by_contra h6
        exact hne m hm ((pp _ _).1 h6).1
      constructor
      · rintro ((h | ⟨k, -, k2, k3, k4⟩) | ⟨m, hm, j, j1, j2, j3⟩)
        · exact .inl h
        · exact .inr ⟨0, by simp, k, by omega, by simpa using k3, by simpa using k4⟩
        · refine .inr ⟨m + 1, by simpa using hm, j, j1, by simpa using j2, ?_⟩
          rw [h5 m hm] at j3
          rw [show i + (m + 1) = i + 1 + m by omega]; exact j3
      · rintro (h | ⟨m, hm, j, j1, j2, j3⟩)
        · exact .inl (.inl h)
        · cases m with
          | zero => exact .inl (.inr ⟨j, by omega, by omega, by simpa using j2, by simpa using j3⟩)
          | succ m =>
            have hm' : m < rest.length := by simpa using hm
            refine .inr ⟨m, hm', j, j1, by simpa using j2, ?_⟩
            rw [h5 m hm', show i + 1 + m = i + (m + 1) by omega]; exact j3

/-- `Draw` of the n bytes at `I`: exactly the pixels under a sprite bit of 1 are toggled, and the hit is that one of them
was set (R151, R155). -/
theorem draw_spec (s : State) (row col n : Nat) (hn : n ≤ 32) :
    (∀ r c, pixel (draw s.fb row col (s.mem.readBytes s.I.toNat n)).1 r c ≠ pixel s.fb r c ↔
      SpriteSets s row col n r c) ∧
    ((draw s.fb row col (s.mem.readBytes s.I.toNat n)).2 = true ↔
      ∃ r c, pixel s.fb r c = true ∧ SpriteSets s row col n r c) := by
  obtain ⟨hp, hh⟩ := drawRows_spec row col 0 (s.mem.readBytes s.I.toNat n) (by simpa using hn) (s.fb, false)
  unfold draw
  refine ⟨fun r c => ?_, ?_⟩
  · rw [hp]
    simp only [SpriteSets, Memory.getElem_readBytes, Memory.length_readBytes, spritePixel, drawRow, drawColumn,
      Fin.ext_iff, Nat.zero_add]
    constructor
    · rintro ⟨m, h1, j, h2, h3, h4, h5⟩; exact ⟨m, j, h1, h2, h3, h4, h5⟩
    · rintro ⟨m, j, h1, h2, h3, h4, h5⟩; exact ⟨m, h1, j, h2, h3, h4, h5⟩
  · rw [hh]
    simp only [SpriteSets, Memory.getElem_readBytes, Memory.length_readBytes, spritePixel, Nat.zero_add]
    constructor
    · rintro (h | ⟨m, h1, j, h2, h3, h4⟩)
      · simp at h
      · exact ⟨_, _, h4, m, j, h1, h2, h3, rfl, rfl⟩
    · rintro ⟨r, c, h0, m, j, h1, h2, h3, h4, h5⟩
      refine .inr ⟨m, h1, j, h2, h3, ?_⟩
      have e1 : drawRow row m = r := Fin.ext h4
      have e2 : drawColumn col j = c := Fin.ext h5
      rw [e1, e2]; exact h0

/-- Two frame buffers with the same pixels are equal. -/
theorem frameBuffer_ext {a b : FrameBuffer} (h : ∀ r c, pixel a r c = pixel b r c) : a = b := by
  apply Vector.ext
  intro r hr
  apply BitVec.eq_of_getLsbD_eq
  intro i hi
  have := h ⟨r, hr⟩ ⟨63 - i, by omega⟩
  have e : 63 - (63 - i) = i := by omega
  simpa [pixel, e] using this

end Sys2Proof.Machine
end

