-- ==== Sys2Proof/Laws/Ports.lean ====
section
/-! SUPPORT. What a draw of a port and a sample do, in the terms of Safety.lean. -/

namespace Sys2Proof.Machine

/-- One draw of `rand_in` (R124). -/
theorem State.drawRand_delivers (s : State) : ByteDelivered s.drawRand.1 s s.drawRand.2 := by
  unfold ByteDelivered State.drawRand
  cases h : s.randIn with
  | nil => exact .inr (by simp)
  | cons r rest => exact .inl ⟨rest, by simp⟩

/-- One draw of `key_in` (R224). -/
theorem State.drawKey_delivers (s : State) : KeyDelivered s.drawKey.1 s s.drawKey.2 := by
  unfold KeyDelivered State.drawKey
  cases h : s.keyIn with
  | nil => exact .inr (by simp)
  | cons r rest => exact .inl ⟨rest, by simp⟩

/-- A sample changes nothing but the input state, `EXIT` and its port. -/
theorem State.sample_unchanged (s : State) : UnchangedExcept (fun p => p.ofSample) s s.sample.2 := by
  obtain ⟨k, l, e, h⟩ := s.sample_frame
  intro p hp
  rw [h]
  cases p <;> simp_all [Part.same, Part.ofSample]
  all_goals rfl

theorem State.sample_delivers (s : State) : KeyDelivered s.sample.1 s s.sample.2 := by
  obtain ⟨k, l, e, h⟩ := s.sample_frame
  have := s.drawKey_delivers
  rw [h]; simpa [KeyDelivered, State.sample] using this

/-- A sample does to the input state what R225 says. -/
theorem State.sample_applies (s : State) : SampleApplied s.sample.1 s s.sample.2 := by
  have h2 : s.sample.2 = s.drawKey.2.applySample s.drawKey.1 := rfl
  have h1 : s.sample.1 = s.drawKey.1 := rfl
  rw [h1, h2, s.drawKey_frame]
  generalize s.drawKey.1 = v
  generalize s.drawKey.2.keyIn = ki
  generalize s.drawKey.2.draws = dr
  rcases State.applySample_cases (s.setKeyIn ki dr) v with ⟨hv, h⟩ | ⟨hv, hk, h⟩ | ⟨hv, hk, h⟩ <;> rw [h]
  · subst hv; simp [SampleApplied]
  · cases v <;> simp_all [SampleApplied, sampledKey]
    all_goals simp [← hk]
  · cases v with
    | exit => simp at hv
    | none =>
      simp only [SampleApplied, sampledKey, State.key, State.setKeys_keys]
      refine ⟨rfl, rfl, fun k => ?_⟩
      rw [getElem_pressKey, getElem_releaseKey]
      by_cases hl : s.lastKey = some k <;> simp [hl]
    | key n =>
      simp only [SampleApplied, sampledKey, State.key, State.setKeys_keys] at *
      refine ⟨rfl, rfl, fun k => ?_⟩
      rw [getElem_pressKey, getElem_releaseKey]
      simp at hk ⊢
      grind

end Sys2Proof.Machine
end

