-- ==== Sys2Proof/Laws/Exec.lean ====
section
/-! SUPPORT. What an instruction can do, said once for all 34: it answers a next state, which either takes a fault and
changes nothing else, or keeps `FAULT` and touches only the parts that belong to the instruction. -/

namespace Sys2Proof.Machine

/-- The parts that an instruction without a fault may change. -/
def mayTouch (i : Instr) (s : State) : Part → Prop
  | .reg r => mayWriteReg i r
  | .pc => True
  | .index => match i with
    | .ldINnn _ | .addIVx _ | .ldFVx _ | .ldMemVx _ | .ldVxMem _ => True
    | _ => False
  | .stack => match i with
    | .call _ | .ret => True
    | _ => False
  | .dt => match i with
    | .ldDtVx _ => True
    | _ => False
  | .st => match i with
    | .ldStVx _ => True
    | _ => False
  | .memByte a => match i with
    | .ldBVx _ => s.I.toNat ≤ a ∧ a < s.I.toNat + 3
    | .ldMemVx x => s.I.toNat ≤ a ∧ a ≤ s.I.toNat + x.val
    | _ => False
  | .pixel _ _ => match i with
    | .cls | .drw _ _ _ => True
    | _ => False
  | .key _ | .lastKey | .exit | .keyPort => match i with
    | .skp _ | .sknp _ | .ldVxK _ => True
    | _ => False
  | .randPort => match i with
    | .rndVxKk _ _ => True
    | _ => False
  | .draws => match i with
    | .skp _ | .sknp _ | .ldVxK _ | .rndVxKk _ _ => True
    | _ => False
  | .fault | .schedule | .turns | .frameOut => False

/-- The outcome of a meaning: a next state that takes a fault, or one that keeps the frame of the instruction. -/
def Framed (i : Instr) (s : State) (o : Result) : Prop :=
  ∃ t, o = .next t ∧ ((∃ c n, t = s.raise c n) ∨ UnchangedExcept (mayTouch i s) s t)

theorem Framed.next {i : Instr} {s t : State} (h : UnchangedExcept (mayTouch i s) s t) : Framed i s (.next t) :=
  ⟨t, rfl, .inr h⟩

theorem Framed.raise {i : Instr} {s : State} (c : FaultCause) (n : Nat) : Framed i s (.next (s.raise c n)) :=
  ⟨_, rfl, .inl ⟨c, n, rfl⟩⟩

/-- The frame of an update written with the named setters, from the lemmas of Laws/State.lean. -/
theorem exec_framed (i : Instr) (s : State) : Framed i s (exec i s) := by
  cases i
  case ret =>
    simp only [exec, execRet]
    rcases s.pop?_cases with ⟨_, h⟩ | ⟨k, sp, _, _, h⟩ <;> rw [h]
    · exact .raise _ _
    · refine .next fun p hp => ?_
      cases p <;> simp_all [Part.same, mayTouch]
  case call nnn =>
    simp only [exec, execCall]
    rcases s.push?_cases s.pc with ⟨_, h⟩ | ⟨_, t, h, ht, _⟩ <;> rw [h]
    · exact .raise _ _
    · refine .next fun p hp => ?_
      generalize t.stack = stack, t.sp = sp at ht
      subst ht
      cases p <;> simp_all [Part.same, mayTouch]
  case drw x y n =>
    simp only [exec, execDrw]
    rcases s.bytesAtI?_cases n.val with ⟨_, h⟩ | ⟨_, _, h⟩ <;> rw [h]
    · refine .next fun p hp => ?_
      cases p <;> simp_all [Part.same, mayTouch, mayWriteReg, State.reg_setReg]
    · exact .raise _ _
  case skp x =>
    simp only [exec, execSkp, skipOnKey]
    rcases keyIndex?_cases (s.reg x) with ⟨k, _, h⟩ | ⟨_, h⟩ <;> rw [h]
    · refine .next fun p hp => ?_
      have hs := s.sample_unchanged p
      cases p <;> simp_all [Part.same, mayTouch, mayWriteReg, Part.ofSample]
    · exact .raise _ _
  case sknp x =>
    simp only [exec, execSknp, skipOnKey]
    rcases keyIndex?_cases (s.reg x) with ⟨k, _, h⟩ | ⟨_, h⟩ <;> rw [h]
    · refine .next fun p hp => ?_
      have hs := s.sample_unchanged p
      cases p <;> simp_all [Part.same, mayTouch, mayWriteReg, Part.ofSample]
    · exact .raise _ _
  case ldVxK x =>
    simp only [exec, execLdVxK]
    refine .next fun p hp => ?_
    have hs := s.sample_unchanged p
    cases s.sample.1 <;> cases p <;>
      simp_all [Part.same, mayTouch, mayWriteReg, Part.ofSample, endKeyWait, State.reg_setReg]
  case rndVxKk x kk =>
    simp only [exec, execRndVxKk]
    refine .next fun p hp => ?_
    rw [s.drawRand_frame]
    cases p <;> simp_all [Part.same, mayTouch, mayWriteReg, State.reg_setReg]
  case addIVx x =>
    simp only [exec, execAddIVx]
    cases indexAdd Params.indexOverflow s.I (s.reg x).toNat with
    | error n => exact .raise _ _
    | ok a =>
      refine .next fun p hp => ?_
      cases p <;> simp_all [Part.same, mayTouch]
  case ldBVx x =>
    simp only [exec, execLdBVx]
    rcases s.storeAtI?_cases (decimalDigits (s.reg x)) with ⟨_, h⟩ | ⟨_, h⟩ <;> rw [h]
    · refine .next fun p hp => ?_
      cases p <;> simp_all [Part.same, mayTouch]
      exact Memory.read_writeBytes_outside _ _ _ _ (by simp; omega)
    · exact .raise _ _
  case ldMemVx x =>
    simp only [exec, execLdMemVx]
    rcases s.storeAtI?_cases (s.firstRegs (x.val + 1)) with ⟨_, h⟩ | ⟨_, h⟩ <;> rw [h]
    · cases indexAdd Params.indexOverflow s.I blockAdvance with
      | error n => exact .raise _ _
      | ok a =>
        refine .next fun p hp => ?_
        cases p <;> simp_all [Part.same, mayTouch]
        exact Memory.read_writeBytes_outside _ _ _ _ (by rw [State.length_firstRegs _ _ (by omega)]; omega)
    · exact .raise _ _
  case ldVxMem x =>
    simp only [exec, execLdVxMem]
    rcases s.bytesAtI?_cases (x.val + 1) with ⟨_, h⟩ | ⟨_, _, h⟩ <;> rw [h]
    · cases indexAdd Params.indexOverflow s.I blockAdvance with
      | error n => exact .raise _ _
      | ok a =>
        refine .next fun p hp => ?_
        cases p <;> simp_all [Part.same, mayTouch, mayWriteReg, State.reg_setFirstRegs]
    · exact .raise _ _
  all_goals
    refine .next fun p hp => ?_
    cases p <;> simp_all [Part.same, mayTouch, mayWriteReg, State.reg_setReg]

/-- Every instruction answers a next state. -/
theorem exec_next (i : Instr) (s : State) : ∃ t, exec i s = .next t :=
  let ⟨t, h, _⟩ := exec_framed i s
  ⟨t, h⟩

/-- What a next state of `exec` can be. -/
theorem exec_cases {i : Instr} {s t : State} (h : exec i s = .next t) :
    (∃ c n, t = s.raise c n) ∨ UnchangedExcept (mayTouch i s) s t := by
  obtain ⟨t', h', hf⟩ := exec_framed i s
  rw [h] at h'
  cases h'
  exact hf

end Sys2Proof.Machine
end

