-- ==== Sys2Proof/Laws/PerInstr.lean ====
section
/-! SUPPORT. Properties of an instruction as syntax, one lemma per constructor. -/

namespace Sys2Proof.Laws.IgnoredDigitsAreZero

/-- The assembled word has a 0 in every digit that the decoder ignores (spec/30_encoding.md R83: "assemble with low
nibble 0", "assemble as 0x00E0 and 0x00EE"). -/
def Statement (i : Instr) : Prop := encode i &&& careMask i = encode i

/-- An instruction that ignores no digit. -/
theorem of_full_mask {i : Instr} (h : careMask i = 0xFFFF) : Statement i := by
  unfold Statement
  rw [h]
  exact BitVec.and_allOnes

theorem cls : Statement .cls := by unfold Statement; decide

theorem ret : Statement .ret := by unfold Statement; decide

theorem jp (nnn : BitVec 12) : Statement (.jp nnn) := of_full_mask rfl

theorem call (nnn : BitVec 12) : Statement (.call nnn) := of_full_mask rfl

theorem seVxKk (x : RegIdx) (kk : Byte) : Statement (.seVxKk x kk) := of_full_mask rfl

theorem sneVxKk (x : RegIdx) (kk : Byte) : Statement (.sneVxKk x kk) := of_full_mask rfl

theorem seVxVy (x y : RegIdx) : Statement (.seVxVy x y) := formatXYN_and_mask _ _ _ _

theorem ldVxKk (x : RegIdx) (kk : Byte) : Statement (.ldVxKk x kk) := of_full_mask rfl

theorem addVxKk (x : RegIdx) (kk : Byte) : Statement (.addVxKk x kk) := of_full_mask rfl

theorem ldVxVy (x y : RegIdx) : Statement (.ldVxVy x y) := of_full_mask rfl

theorem orVxVy (x y : RegIdx) : Statement (.orVxVy x y) := of_full_mask rfl

theorem andVxVy (x y : RegIdx) : Statement (.andVxVy x y) := of_full_mask rfl

theorem xorVxVy (x y : RegIdx) : Statement (.xorVxVy x y) := of_full_mask rfl

theorem addVxVy (x y : RegIdx) : Statement (.addVxVy x y) := of_full_mask rfl

theorem subVxVy (x y : RegIdx) : Statement (.subVxVy x y) := of_full_mask rfl

theorem shrVxVy (x y : RegIdx) : Statement (.shrVxVy x y) := of_full_mask rfl

theorem subnVxVy (x y : RegIdx) : Statement (.subnVxVy x y) := of_full_mask rfl

theorem shlVxVy (x y : RegIdx) : Statement (.shlVxVy x y) := of_full_mask rfl

theorem sneVxVy (x y : RegIdx) : Statement (.sneVxVy x y) := formatXYN_and_mask _ _ _ _

theorem ldINnn (nnn : BitVec 12) : Statement (.ldINnn nnn) := of_full_mask rfl

theorem jpV0 (nnn : BitVec 12) : Statement (.jpV0 nnn) := of_full_mask rfl

theorem rndVxKk (x : RegIdx) (kk : Byte) : Statement (.rndVxKk x kk) := of_full_mask rfl

theorem drw (x y : RegIdx) (n : Fin 16) : Statement (.drw x y n) := of_full_mask rfl

theorem skp (x : RegIdx) : Statement (.skp x) := of_full_mask rfl

theorem sknp (x : RegIdx) : Statement (.sknp x) := of_full_mask rfl

theorem ldVxDt (x : RegIdx) : Statement (.ldVxDt x) := of_full_mask rfl

theorem ldVxK (x : RegIdx) : Statement (.ldVxK x) := of_full_mask rfl

theorem ldDtVx (x : RegIdx) : Statement (.ldDtVx x) := of_full_mask rfl

theorem ldStVx (x : RegIdx) : Statement (.ldStVx x) := of_full_mask rfl

theorem addIVx (x : RegIdx) : Statement (.addIVx x) := of_full_mask rfl

theorem ldFVx (x : RegIdx) : Statement (.ldFVx x) := of_full_mask rfl

theorem ldBVx (x : RegIdx) : Statement (.ldBVx x) := of_full_mask rfl

theorem ldMemVx (x : RegIdx) : Statement (.ldMemVx x) := of_full_mask rfl

theorem ldVxMem (x : RegIdx) : Statement (.ldVxMem x) := of_full_mask rfl

end Sys2Proof.Laws.IgnoredDigitsAreZero
end

