-- ==== Sys2Proof/Laws/Step.lean ====
section
/-! SUPPORT. What one step of the machine can be, said once: which agent steps, what its step answers, and which parts of
the state it can change. -/

namespace Sys2Proof.Machine

/-! ## The turn -/

/-- A scheduled agent steps next. -/
theorem State.turn_of_cons {s : State} {a : Agent} {rest : List Agent} (h : s.schedule = a :: rest) : s.turn = a := by
  simp [State.turn, h]

/-- With nothing scheduled the next agent is a free value. -/
theorem State.turn_of_nil {s : State} (h : s.schedule = []) : s.turn = Config.freeAgent s.turns := by
  simp [State.turn, h]

theorem State.turnsAfter_of_cons {s : State} {a : Agent} {rest : List Agent} (h : s.schedule = a :: rest) :
    s.turnsAfter = s.turns := by
  simp [State.turnsAfter, h]

theorem State.turnsAfter_of_nil {s : State} (h : s.schedule = []) : s.turnsAfter = s.turns + 1 := by
  simp [State.turnsAfter, h]

theorem State.popTurn_unchanged (s : State) : UnchangedExcept (fun p => p.ofTurn) s s.popTurn := by
  intro p hp; cases p <;> simp_all [Part.same, Part.ofTurn]

/-- Taking a turn (R240). -/
theorem State.popTurn_turnTaken (s : State) : TurnTaken s s.popTurn := by
  cases h : s.schedule with
  | nil => exact .inr ⟨h, by simp [h], by simp [State.turnsAfter_of_nil h]⟩
  | cons a rest => exact .inl ⟨a, rest, h, by simp [h], by simp [State.turnsAfter_of_cons h]⟩

/-- A turn taken before something that leaves the schedule alone. -/
theorem turnTaken_of_same {s t : State} (h1 : t.schedule = s.popTurn.schedule) (h2 : t.turns = s.popTurn.turns) :
    TurnTaken s t := by
  have h := s.popTurn_turnTaken
  unfold TurnTaken at *
  rwa [h1, h2]

theorem cpuFirst_cons (l : List Agent) : ∃ rest, cpuFirst l = .cpu :: rest := by
  unfold cpuFirst; split <;> exact ⟨_, rfl⟩

/-- Where a word is placed, the `CPU` steps next (log 12). -/
theorem State.turn_placeWord (s : State) (w : Word) : (s.placeWord w).turn = .cpu := by
  obtain ⟨rest, h⟩ := cpuFirst_cons s.schedule
  exact State.turn_of_cons (rest := rest) h

theorem State.fetch?_popTurn (s : State) : s.popTurn.fetch? = s.fetch? := rfl

/-! ## The step of each agent -/

/-- In a live machine a step is the step of the agent whose turn it is. -/
theorem step_of_live {s : State} (h : Live s) : step s = agentStep s.turn s.popTurn := by
  simp [step, oneStep, h.1, h.2]

/-- A machine that is not live answers no next state. -/
theorem live_of_step {s t : State} (h : step s = .next t) : Live s := by
  unfold step oneStep at h
  split at h
  · cases h
  · rename_i hf
    by_cases he : s.exit = true
    · simp [he] at h
    · exact ⟨hf, by simpa using he⟩

/-- The `CPU` step always answers a next state. -/
theorem cpuStep_next (s : State) : ∃ t, cpuStep s = .next t := by
  unfold cpuStep
  split
  · exact ⟨_, rfl⟩
  · split
    · exact ⟨_, rfl⟩
    · exact exec_next _ _

theorem State.raise_unchanged (s : State) (c : FaultCause) (n : Nat) :
    UnchangedExcept (fun p => p = .fault) s (s.raise c n) := by
  intro p hp; cases p <;> simp_all [Part.same]

@[simp] theorem toNat_decay (v : Byte) : (decay v).toNat = v.toNat - 1 := by
  have := v.isLt
  simp [decay]; omega

/-- Everything a step can be. -/
theorem step_cases {s t : State} (h : step s = .next t) :
    Live s ∧
    ((s.turn = .cpu ∧ ((∃ c n, t = s.popTurn.raise c n) ∨
        ∃ i, AboutToExecute s i ∧ exec i s.popTurn = .next t ∧ UnchangedExcept (mayTouch i s) s.popTurn t)) ∨
     (s.turn = .timer ∧ t = (s.popTurn.setDt (decay s.dt)).setSt (decay s.st)) ∨
     (s.turn = .sampler ∧ t = s.popTurn.sample.2) ∨
     (s.turn = .refresh ∧ t = s.popTurn.setFrameOut s.snapshot)) := by
  have hl := live_of_step h
  refine ⟨hl, ?_⟩
  rw [step_of_live hl] at h
  cases ht : s.turn <;> rw [ht] at h <;> simp only [agentStep] at h
  · refine .inl ⟨rfl, ?_⟩
    unfold cpuStep at h
    split at h
    · cases h; exact .inl ⟨_, _, rfl⟩
    · rename_i w hw
      split at h
      · cases h; exact .inl ⟨_, _, rfl⟩
      · rename_i i hi
        rcases exec_cases h with h3 | h3
        · exact .inl h3
        · exact .inr ⟨i, ⟨hl, ht, w, hw, hi⟩, h, h3⟩
  · cases h; exact .inr (.inl ⟨rfl, rfl⟩)
  · cases h; exact .inr (.inr (.inl ⟨rfl, rfl⟩))
  · cases h; exact .inr (.inr (.inr ⟨rfl, rfl⟩))

/-- Who can have changed a part, `FAULT` and the turn apart: an instruction that may touch it, a timer tick, a sample
or a refresh. -/
theorem step_changes {s t : State} {p : Part} (h : step s = .next t) (hne : ¬ p.same s t) (hf : p ≠ .fault)
    (ht : ¬ p.ofTurn) :
    (∃ i, AboutToExecute s i ∧ mayTouch i s p ∧ exec i s.popTurn = .next t) ∨
    (s.turn = .timer ∧ (p = .dt ∨ p = .st) ∧ t = (s.popTurn.setDt (decay s.dt)).setSt (decay s.st)) ∨
    (s.turn = .sampler ∧ p.ofSample) ∨ (s.turn = .refresh ∧ p = .frameOut) := by
  have hpop : ∀ u, p.same s.popTurn u → p.same s u := by
    intro u; cases p <;> simp_all [Part.same, Part.ofTurn]
  obtain ⟨-, ⟨-, ⟨c, n, rfl⟩ | ⟨i, ha, he, hu⟩⟩ | ⟨ht, rfl⟩ | ⟨ht, rfl⟩ | ⟨ht, rfl⟩⟩ := step_cases h
  · exact absurd (hpop _ (State.raise_unchanged _ _ _ _ hf)) hne
  · exact .inl ⟨i, ha, by_contra fun hm => hne (hpop _ (hu _ hm)), he⟩
  · refine .inr (.inl ⟨ht, by_contra fun hm => hne ?_, rfl⟩)
    cases p <;> simp_all [Part.same, Part.ofTurn]
  · exact .inr (.inr (.inl ⟨ht, by_contra fun hm => hne (hpop _ (State.sample_unchanged _ _ hm))⟩))
  · refine .inr (.inr (.inr ⟨ht, by_contra fun hm => hne ?_⟩))
    cases p <;> simp_all [Part.same, Part.ofTurn]

end Sys2Proof.Machine

namespace Sys2Proof

open Machine

/-! ## Runs (R240) -/

/-- A property that every step from a state with `P` keeps holds at the end of a run. -/
theorem Run.preserves {P Q : State → Prop} {s t : State} {agents : List Agent} (h : Run P s agents t)
    (hQ : ∀ u v, P u → Q u → step u = .next v → Q v) (hs : Q s) : Q t := by
  induction h with
  | nil _ => exact hs
  | cons hp hstep _ ih => exact ih (hQ _ _ hp hs hstep)

/-- The agents of the first n steps of an endless run. -/
def agentsOf (r : Nat → State) : Nat → List Agent
  | 0 => []
  | n + 1 => (r 0).turn :: agentsOf (fun k => r (k + 1)) n

/-- A prefix of an endless run is a run. -/
theorem EndlessRun.initial_run {r : Nat → State} (h : EndlessRun r) (n : Nat) :
    Run (fun _ => True) (r 0) (agentsOf r n) (r n) := by
  induction n generalizing r with
  | zero => exact .nil _
  | succ n ih => exact .cons trivial (h 0) (ih (r := fun k => r (k + 1)) (fun k => h (k + 1)))

theorem count_agentsOf_succ (a : Agent) (r : Nat → State) (n : Nat) :
    (agentsOf r (n + 1)).count a = (agentsOf r n).count a + if (r n).turn = a then 1 else 0 := by
  induction n generalizing r with
  | zero => simp [agentsOf, List.count_cons]
  | succ n ih =>
    have h := ih (fun k => r (k + 1))
    rw [agentsOf, List.count_cons, h, agentsOf, List.count_cons]
    omega

/-- A run that is fair to an agent has prefixes in which it steps as often as wanted. -/
theorem FairTo.count_ge {a : Agent} {r : Nat → State} (h : FairTo a r) (k : Nat) :
    ∃ n, k ≤ (agentsOf r n).count a := by
  induction k with
  | zero => exact ⟨0, Nat.zero_le _⟩
  | succ k ih =>
    obtain ⟨n, hn⟩ := ih
    obtain ⟨m, hm, ha⟩ := h n
    refine ⟨m + 1, ?_⟩
    have mono : ∀ d, (agentsOf r n).count a ≤ (agentsOf r (n + d)).count a := by
      intro d
      induction d with
      | zero => exact Nat.le_refl _
      | succ d ih => rw [← Nat.add_assoc, count_agentsOf_succ]; omega
    have := mono (m - n)
    rw [show n + (m - n) = m by omega] at this
    rw [count_agentsOf_succ, if_pos ha]
    omega

end Sys2Proof
end

