-- ==== Sys2Proof/Tests/Slice0.lean ====
section
/-! SUPPORT. Tests. Words and expected results are those of spec/95_test_vectors.md (the ids V.., VD.., VE.., VF.. of its
section 2) or written out by hand from the spec's tables, never the model's own answers; and, for every statement with
hypotheses, a witness that meets them. -/

namespace Sys2Proof.Tests

open Machine

/-! ## Helpers -/

/-- The outcome is a next state of which `p` holds. -/
def after (o : Result) (p : State → Bool) : Bool :=
  match o with
  | .next t => p t
  | .fault _ | .refused _ => false

/-- One step that runs the word `w` from `s`. -/
def run (w : Nat) (s : State) (p : State → Bool) : Bool := after (step (s.withFetchWord 16 w)) p

/-- One step of `s` as it is. -/
def next (s : State) (p : State → Bool) : Bool := after (step s) p

/-- The reset state with the `CPU` scheduled next. -/
def cpuNext : State := State.reset.setSchedule [.cpu]

/-- The reset state with two registers set. -/
def regs (x : RegIdx) (a : Byte) (y : RegIdx) (b : Byte) : State := (State.reset.setReg x a).setReg y b

/-- The reset state with n stack entries, all 0x300. -/
def withStack (n : Fin (Config.stackDepth + 1)) : State := State.reset.setStack (Vector.replicate Config.stackDepth 0x300) n

/-- The reset state with a display of which row r holds the bits `bits`. -/
def withRow (r : Fin 32) (bits : BitVec 64) : State := State.reset.setFb (State.reset.fb.set r.val bits)

/-- The reset state with key 10 held and what the port delivers next. -/
def holding10 (v : KeySample) : State :=
  (State.reset.setKeys (State.reset.keys.set 10 true) (some 10)).setKeyIn [v] 0

/-- The reset state with what the port delivers next. -/
def delivering (v : KeySample) : State := State.reset.setKeyIn [v] 0

/-- The reset state, halted by the fault of word 0x0000. -/
def halted : State := State.reset.raise .illegal 0

/-! ## The checks of WellFormed refuse -/

theorem test_illegal_family0 : WellFormed.word 0x00E1 = false := by decide
theorem test_illegal_zero_word : WellFormed.word 0x0000 = false := by decide
theorem test_illegal_family8 : WellFormed.word 0x812F = false := by decide
theorem test_illegal_familyE : WellFormed.word 0xE19F = false := by decide
theorem test_illegal_familyF : WellFormed.word 0xF002 = false := by decide
theorem test_legal_word : WellFormed.word 0x812E = true := by decide
theorem test_image_too_long : WellFormed.image (List.replicate 3585 0) = false := by
  unfold WellFormed.image; rw [List.length_replicate]; decide
theorem test_image_longest : WellFormed.image (List.replicate 3584 0) = true := by
  unfold WellFormed.image; rw [List.length_replicate]; decide
theorem test_mem_size_too_small : WellFormed.memSize 3999 = false := by decide
theorem test_mem_size_too_large : WellFormed.memSize 65537 = false := by decide
theorem test_stack_depth_zero : WellFormed.stackDepth 0 = false := by decide
theorem test_font_wrong_first_glyph : WellFormed.font (List.replicate 80 0) = false := by decide
theorem test_font_too_short : WellFormed.font (Params.font.take 79) = false := by decide
theorem test_parameters_well_formed :
    WellFormed.memSize Params.memSize = true ∧ WellFormed.stackDepth Config.stackDepth = true ∧
      WellFormed.font Params.font = true := by decide

/-! ## Decoding: one word for every row of R80, written out bit by bit from its format and opcode digits; each is also a
word that meets the row's mask and match -/

theorem test_decode_cls :
    (0b0000000111100000 : Word) &&& 0xF0FF = 0x00E0 ∧ decode 0b0000000111100000 = .ok .cls := by decide
theorem test_decode_ret :
    (0b0000000111101110 : Word) &&& 0xF0FF = 0x00EE ∧ decode 0b0000000111101110 = .ok .ret := by decide
theorem test_decode_jp :
    (0b0001001000110100 : Word) &&& 0xF000 = 0x1000 ∧ decode 0b0001001000110100 = .ok (.jp 0x234) := by decide
theorem test_decode_call :
    (0b0010001000000100 : Word) &&& 0xF000 = 0x2000 ∧ decode 0b0010001000000100 = .ok (.call 0x204) := by decide
theorem test_decode_seVxKk :
    (0b0011001100101010 : Word) &&& 0xF000 = 0x3000 ∧ decode 0b0011001100101010 = .ok (.seVxKk 3 0x2A) := by decide
theorem test_decode_sneVxKk :
    (0b0100001100101010 : Word) &&& 0xF000 = 0x4000 ∧ decode 0b0100001100101010 = .ok (.sneVxKk 3 0x2A) := by decide
theorem test_decode_seVxVy :
    (0b0101000100100001 : Word) &&& 0xF000 = 0x5000 ∧ decode 0b0101000100100001 = .ok (.seVxVy 1 2) := by decide
theorem test_decode_ldVxKk :
    (0b0110111110101011 : Word) &&& 0xF000 = 0x6000 ∧ decode 0b0110111110101011 = .ok (.ldVxKk 15 0xAB) := by decide
theorem test_decode_addVxKk :
    (0b0111001000100000 : Word) &&& 0xF000 = 0x7000 ∧ decode 0b0111001000100000 = .ok (.addVxKk 2 0x20) := by decide
theorem test_decode_ldVxVy :
    (0b1000000100100000 : Word) &&& 0xF00F = 0x8000 ∧ decode 0b1000000100100000 = .ok (.ldVxVy 1 2) := by decide
theorem test_decode_orVxVy :
    (0b1000000100100001 : Word) &&& 0xF00F = 0x8001 ∧ decode 0b1000000100100001 = .ok (.orVxVy 1 2) := by decide
theorem test_decode_andVxVy :
    (0b1000000100100010 : Word) &&& 0xF00F = 0x8002 ∧ decode 0b1000000100100010 = .ok (.andVxVy 1 2) := by decide
theorem test_decode_xorVxVy :
    (0b1000000100100011 : Word) &&& 0xF00F = 0x8003 ∧ decode 0b1000000100100011 = .ok (.xorVxVy 1 2) := by decide
theorem test_decode_addVxVy :
    (0b1000000100100100 : Word) &&& 0xF00F = 0x8004 ∧ decode 0b1000000100100100 = .ok (.addVxVy 1 2) := by decide
theorem test_decode_subVxVy :
    (0b1000000100100101 : Word) &&& 0xF00F = 0x8005 ∧ decode 0b1000000100100101 = .ok (.subVxVy 1 2) := by decide
theorem test_decode_shrVxVy :
    (0b1000000100100110 : Word) &&& 0xF00F = 0x8006 ∧ decode 0b1000000100100110 = .ok (.shrVxVy 1 2) := by decide
theorem test_decode_subnVxVy :
    (0b1000000100100111 : Word) &&& 0xF00F = 0x8007 ∧ decode 0b1000000100100111 = .ok (.subnVxVy 1 2) := by decide
theorem test_decode_shlVxVy :
    (0b1000000100101110 : Word) &&& 0xF00F = 0x800E ∧ decode 0b1000000100101110 = .ok (.shlVxVy 1 2) := by decide
theorem test_decode_sneVxVy :
    (0b1001000100100101 : Word) &&& 0xF000 = 0x9000 ∧ decode 0b1001000100100101 = .ok (.sneVxVy 1 2) := by decide
theorem test_decode_ldINnn :
    (0b1010001011110000 : Word) &&& 0xF000 = 0xA000 ∧ decode 0b1010001011110000 = .ok (.ldINnn 0x2F0) := by decide
theorem test_decode_jpV0 :
    (0b1011001100000000 : Word) &&& 0xF000 = 0xB000 ∧ decode 0b1011001100000000 = .ok (.jpV0 0x300) := by decide
theorem test_decode_rndVxKk :
    (0b1100001100001111 : Word) &&& 0xF000 = 0xC000 ∧ decode 0b1100001100001111 = .ok (.rndVxKk 3 0x0F) := by decide
theorem test_decode_drw :
    (0b1101000100100101 : Word) &&& 0xF000 = 0xD000 ∧ decode 0b1101000100100101 = .ok (.drw 1 2 5) := by decide
theorem test_decode_skp :
    (0b1110001010011110 : Word) &&& 0xF0FF = 0xE09E ∧ decode 0b1110001010011110 = .ok (.skp 2) := by decide
theorem test_decode_sknp :
    (0b1110001010100001 : Word) &&& 0xF0FF = 0xE0A1 ∧ decode 0b1110001010100001 = .ok (.sknp 2) := by decide
theorem test_decode_ldVxDt :
    (0b1111010100000111 : Word) &&& 0xF0FF = 0xF007 ∧ decode 0b1111010100000111 = .ok (.ldVxDt 5) := by decide
theorem test_decode_ldVxK :
    (0b1111001100001010 : Word) &&& 0xF0FF = 0xF00A ∧ decode 0b1111001100001010 = .ok (.ldVxK 3) := by decide
theorem test_decode_ldDtVx :
    (0b1111010100010101 : Word) &&& 0xF0FF = 0xF015 ∧ decode 0b1111010100010101 = .ok (.ldDtVx 5) := by decide
theorem test_decode_ldStVx :
    (0b1111000100011000 : Word) &&& 0xF0FF = 0xF018 ∧ decode 0b1111000100011000 = .ok (.ldStVx 1) := by decide
theorem test_decode_addIVx :
    (0b1111010000011110 : Word) &&& 0xF0FF = 0xF01E ∧ decode 0b1111010000011110 = .ok (.addIVx 4) := by decide
theorem test_decode_ldFVx :
    (0b1111000000101001 : Word) &&& 0xF0FF = 0xF029 ∧ decode 0b1111000000101001 = .ok (.ldFVx 0) := by decide
theorem test_decode_ldBVx :
    (0b1111011100110011 : Word) &&& 0xF0FF = 0xF033 ∧ decode 0b1111011100110011 = .ok (.ldBVx 7) := by decide
theorem test_decode_ldMemVx :
    (0b1111001001010101 : Word) &&& 0xF0FF = 0xF055 ∧ decode 0b1111001001010101 = .ok (.ldMemVx 2) := by decide
theorem test_decode_ldVxMem :
    (0b1111001001100101 : Word) &&& 0xF0FF = 0xF065 ∧ decode 0b1111001001100101 = .ok (.ldVxMem 2) := by decide

theorem test_decode_refuses_by_name :
    decode 0x00E1 = .error (.family0 0xE1) ∧ decode 0x8128 = .error (.family8 8) ∧
      decode 0xE19F = .error (.familyE 0x9F) ∧ decode 0xF002 = .error (.familyF 0x02) := by decide
theorem test_decode_too_few_bytes : decodeBytes [0x60] = .error .tooFewBytes := by decide

/-! ## Families 0, 1, 2 and B -/

theorem test_cls :
    (run 0x01E0 ((withRow 3 0x0400000000000000).setReg 15 0x77)
      (fun t => t.fb[3] == 0 && t.reg 15 == 0x77 && t.pc == 0x202)) = true := by decide
theorem test_ret : (run 0x00EE (withStack 1) (fun t => t.sp == 0 && t.pc == 0x302)) = true := by decide
theorem test_ret_empty :
    (run 0x00EE State.reset
      (fun t => t.fault == some ⟨.bounds, .stackUnderflow, 0x200, some 0x00EE, 0⟩ && t.pc == 0x200)) = true := by decide
theorem test_jp : (run 0x1234 State.reset (fun t => t.pc == 0x234)) = true := by decide
theorem test_jp_top : (run 0x1FFF State.reset (fun t => t.pc == 0xFFF && t.fault == none)) = true := by decide
theorem test_call :
    (run 0x2204 State.reset (fun t => t.stack[0] == 0x200 && t.sp == 1 && t.pc == 0x204)) = true := by decide
theorem test_call_full :
    (run 0x2200 (withStack 16)
      (fun t => t.fault == some ⟨.bounds, .stackOverflow, 0x200, some 0x2200, 16⟩ && t.sp == 16 && t.pc == 0x200)) = true := by decide
theorem test_jpV0 : (run 0xB300 (State.reset.setReg 0 0x04) (fun t => t.pc == 0x304)) = true := by decide
theorem test_jpV0_beyond_memory :
    (run 0xBFFF (State.reset.setReg 0 0xFF) (fun t => t.pc == 0x10FE && t.fault == none)) = true := by decide

/-! ## Families 3, 4, 5 and 9 -/

theorem test_se_kk : (run 0x332A (State.reset.setReg 3 0x2A) (fun t => t.pc == 0x204)) = true := by decide
theorem test_se_kk_not : (run 0x332A (State.reset.setReg 3 0x2B) (fun t => t.pc == 0x202)) = true := by decide
theorem test_sne_kk : (run 0x432A (State.reset.setReg 3 0x2A) (fun t => t.pc == 0x202)) = true := by decide
theorem test_sne_kk_skips : (run 0x432A State.reset (fun t => t.pc == 0x204)) = true := by decide
theorem test_se_xy_ignores_nibble : (run 0x5121 (regs 1 7 2 7) (fun t => t.pc == 0x204)) = true := by decide
theorem test_se_xy_not : (run 0x5120 (regs 1 7 2 8) (fun t => t.pc == 0x202)) = true := by decide
theorem test_sne_xy : (run 0x9120 (regs 1 7 2 8) (fun t => t.pc == 0x204)) = true := by decide
theorem test_sne_xy_ignores_nibble : (run 0x9125 (regs 1 7 2 7) (fun t => t.pc == 0x202)) = true := by decide

/-! ## Families 6, 7, A and C -/

theorem test_ld_kk : (run 0x6FAB State.reset (fun t => t.reg 15 == 0xAB && t.pc == 0x202)) = true := by decide
theorem test_add_kk_no_flag :
    (run 0x7220 (regs 2 0xF0 15 9) (fun t => t.reg 2 == 0x10 && t.reg 15 == 9)) = true := by decide
theorem test_add_kk_flag_register :
    (run 0x7F01 (State.reset.setReg 15 0xFF) (fun t => t.reg 15 == 0)) = true := by decide
theorem test_ld_i : (run 0xA2F0 (State.reset.setI 0xFFFF) (fun t => t.I == 0x2F0)) = true := by decide
theorem test_rnd :
    (run 0xC30F (State.reset.setRandIn [0xA7] 0) (fun t => t.reg 3 == 0x07 && t.randIn == [])) = true := by decide
theorem test_rnd_zero_mask : (run 0xC300 (State.reset.setRandIn [0xFF] 0) (fun t => t.reg 3 == 0)) = true := by decide

/-! ## Family 8 -/

theorem test_ld :
    (run 0x8120 ((regs 1 0x3C 2 0x0F).setReg 15 0x77) (fun t => t.reg 1 == 0x0F && t.reg 15 == 0x77)) = true := by decide
theorem test_or :
    (run 0x8121 ((regs 1 0x3C 2 0x0F).setReg 15 0x77) (fun t => t.reg 1 == 0x3F && t.reg 15 == 0x77)) = true := by decide
theorem test_and :
    (run 0x8122 ((regs 1 0x3C 2 0x0F).setReg 15 0x77) (fun t => t.reg 1 == 0x0C && t.reg 15 == 0x77)) = true := by decide
theorem test_xor :
    (run 0x8123 ((regs 1 0x3C 2 0x0F).setReg 15 0x77) (fun t => t.reg 1 == 0x33 && t.reg 15 == 0x77)) = true := by decide
theorem test_add_256 :
    (run 0x8124 (regs 1 0xFF 2 0x01) (fun t => t.reg 1 == 0x00 && t.reg 15 == 0x01)) = true := by decide
theorem test_sub_borrow :
    (run 0x8125 (regs 1 0x10 2 0x20) (fun t => t.reg 1 == 0xF0 && t.reg 15 == 0x01)) = true := by decide
theorem test_sub_equal :
    (run 0x8125 (regs 1 0x55 2 0x55) (fun t => t.reg 1 == 0x00 && t.reg 15 == 0x00)) = true := by decide
theorem test_shr : (run 0x8126 (regs 1 0x05 2 0xF0) (fun t => t.reg 1 == 0x02 && t.reg 15 == 0x01)) = true := by decide
theorem test_subn : (run 0x8127 (regs 1 0x10 2 0x30) (fun t => t.reg 1 == 0x20 && t.reg 15 == 0x00)) = true := by decide
theorem test_subn_borrow :
    (run 0x8127 (regs 1 0x30 2 0x10) (fun t => t.reg 1 == 0xE0 && t.reg 15 == 0x01)) = true := by decide
theorem test_shl : (run 0x812E (regs 1 0x81 2 0x0F) (fun t => t.reg 1 == 0x02 && t.reg 15 == 0x01)) = true := by decide
theorem test_add_flag_wins : (run 0x8F14 (regs 15 0xF0 1 0x20) (fun t => t.reg 15 == 1)) = true := by decide
theorem test_shr_flag_lost_result :
    (run 0x8F16 (State.reset.setReg 15 0x02) (fun t => t.reg 15 == 0)) = true := by decide
theorem test_shl_flag_lost_result :
    (run 0x8F1E (State.reset.setReg 15 0x40) (fun t => t.reg 15 == 0)) = true := by decide

/-! ## Family D -/

theorem test_drw_wraps :
    (run 0xD123 (((regs 1 0x7E 2 0x3E).setI 0x300).setMem [(0x300, 0xFF), (0x301, 0x81), (0x302, 0xFF)])
      (fun t => t.fb[30] == 0xFC00000000000003 && t.fb[31] == 0x0400000000000002 && t.fb[0] == 0xFC00000000000003 &&
        t.fb[1] == 0 && t.reg 15 == 0)) = true := by decide
theorem test_drw_collides :
    (run 0xD121 ((((withRow 0 0x0100000000000000).setReg 1 4).setI 0x300).setMem [(0x300, 0xFF)])
      (fun t => t.fb[0] == 0x0EF0000000000000 && t.reg 15 == 1)) = true := by decide

/-! ## Family E and FX0A -/

theorem test_skp_samples_first :
    (run 0xE29E ((holding10 (.key 3)).setReg 2 0x0A)
      (fun t => t.key 10 == false && t.key 3 == true && t.lastKey == some 3 && t.pc == 0x202)) = true := by decide
theorem test_skp_key_out_of_range :
    run 0xE29E ((delivering .exit).setReg 2 0x10)
      (fun t => t.fault == some ⟨.bounds, .key, 0x200, some 0xE29E, 16⟩ && t.pc == 0x200 && t.keyIn == [.exit] && !t.exit) = true := by decide
theorem test_sknp : (run 0xE2A1 ((delivering .none).setReg 2 0x0A) (fun t => t.pc == 0x204)) = true := by decide
theorem test_sknp_pressed :
    (run 0xE2A1 ((delivering (.key 10)).setReg 2 0x0A) (fun t => t.key 10 == true && t.pc == 0x202)) = true := by decide
theorem test_ld_k :
    (run 0xF30A (delivering (.key 7)) (fun t => t.reg 3 == 7 && t.lastKey == some 7 && t.key 7 && t.pc == 0x202)) = true := by decide
theorem test_ld_k_exit :
    run 0xF30A ((holding10 .exit).setReg 3 0x55)
      (fun t => t.exit && t.reg 3 == 0x55 && t.pc == 0x200 && t.key 10 && t.lastKey == some 10) = true := by decide

/-! ## Family F -/

theorem test_ld_x_dt :
    (run 0xF507 (State.reset.setDt 0x3C) (fun t => t.reg 5 == 0x3C && t.dt == 0x3C)) = true := by decide
theorem test_ld_dt : (run 0xF515 (State.reset.setReg 5 0x3C) (fun t => t.dt == 0x3C && t.st == 0)) = true := by decide
theorem test_ld_st :
    run 0xF118 (State.reset.setReg 1 5) (fun t => t.st == 5 && t.dt == 0 && t.toneOut) = true := by decide
theorem test_add_i_no_flag :
    (run 0xF41E (((State.reset.setI 0x0FFF).setReg 4 0xFF).setReg 15 9) (fun t => t.I == 0x10FE && t.reg 15 == 9)) = true := by decide
theorem test_add_i_wraps :
    (run 0xF41E ((State.reset.setI 0xFFF0).setReg 4 0xFF) (fun t => t.I == 0x00EF)) = true := by decide
theorem test_ld_f : (run 0xF029 (State.reset.setReg 0 0x0A) (fun t => t.I == 0x32)) = true := by decide
theorem test_ld_f_not_masked : (run 0xF029 (State.reset.setReg 0 0xFF) (fun t => t.I == 0x4FB)) = true := by decide
theorem test_ld_b :
    (run 0xF733 ((State.reset.setI 0x300).setReg 7 156)
      (fun t => t.mem.readBytes 0x300 3 == [1, 5, 6] && t.I == 0x300)) = true := by decide
theorem test_ld_b_top :
    run 0xF733 ((State.reset.setI 0xFFD).setReg 7 255) (fun t => t.mem.readBytes 0xFFD 3 == [2, 5, 5]) = true := by decide
theorem test_dump :
    (run 0xF255 (((regs 0 0xAA 1 0xBB).setReg 2 0xCC).setI 0x400)
      (fun t => t.mem.readBytes 0x400 4 == [0xAA, 0xBB, 0xCC, 0] && t.I == 0x408)) = true := by decide
theorem test_load :
    (run 0xF265 ((((State.reset.setReg 3 0x99).setI 0x400).setMem [(0x400, 0x11), (0x401, 0x22), (0x402, 0x33)]))
      (fun t => t.reg 0 == 0x11 && t.reg 1 == 0x22 && t.reg 2 == 0x33 && t.reg 3 == 0x99 && t.I == 0x408)) = true := by decide

/-! ## Fetch, agents, reset -/

theorem test_fetch_beyond_memory :
    next (cpuNext.setPc 0xFFF) (fun t => t.fault == some ⟨.bounds, .mem, 0xFFF, none, 0xFFF⟩) = true := by decide
theorem test_zero_word_is_illegal :
    (next cpuNext (fun t => t.fault == some ⟨.decode, .illegal, 0x200, some 0, 0⟩ && t.pc == 0x200)) = true := by decide
theorem test_fetch_is_big_endian :
    (next (cpuNext.setMem [(0x200, 0x22), (0x201, 0x04)]) (fun t => t.pc == 0x204 && t.sp == 1)) = true := by decide
theorem test_timer :
    (next (((State.reset.setDt 1).setSt 0).setSchedule [.timer]) (fun t => t.dt == 0 && t.st == 0 && t.schedule == [])) = true := by decide
theorem test_sampler :
    (next ((holding10 .none).setSchedule [.sampler]) (fun t => t.key 10 == false && t.lastKey == none)) = true := by decide
theorem test_refresh :
    (next ((withRow 3 5).setSchedule [.refresh])
      (fun t => t.frameOut == some (withRow 3 5).snapshot && t.fb[3] == 5)) = true := by decide
theorem test_boot : ((State.boot [0x22, 0x04]).mem.readBytes 0x1FF 4 == [0x00, 0x22, 0x04, 0x00]) = true := by decide
theorem test_font : (State.reset.mem.readBytes 0x32 5 == [0xF0, 0x90, 0xF0, 0x90, 0x90]) = true := by decide
theorem test_writing_the_reset_byte_removes_the_entry : (Memory.write [(0x300, 1)] 0x300 0 == []) = true := by decide

theorem test_fault_codes :
    [FaultCause.illegal, .mem, .stackOverflow, .stackUnderflow, .key, .index, .load].map
      (fun c => (c.cls.number, c.code)) = [(1, 1), (2, 2), (2, 3), (2, 4), (2, 5), (2, 6), (2, 7)] := by decide
theorem test_halted_stays_halted : step halted = .fault (.halted ⟨.decode, .illegal, 0x200, some 0, 0⟩) := by rfl
theorem test_exited_stays_exited : step State.reset.setExit = .fault .exited := by rfl

/-! ## Witnesses: states and operands that meet the hypotheses of the statements, each clause at its boundary -/

/-- A live state that meets the invariant and is far from reset: one call deep, a key held, a timer running; the `CPU` steps
next. -/
def busy : State := (((holding10 .none).setStack (State.reset.stack.set 0 0x300) 1).setDt 5).setSchedule [.cpu]

theorem witness_inv : Inv busy := ⟨by decide, by decide, by decide, by decide, by decide⟩

theorem witness_EncodingADecodedWordGivesItBack : decode 0x5121 = .ok (.seVxVy 1 2) := by decide
theorem witness_DecodingFollowsTheOpcodeMap_row :
    ∃ row ∈ opcodeMap, (0x5121 : Word) &&& row.mask = row.bits := by decide
theorem witness_DecodingFollowsTheOpcodeMap_none :
    ∀ row ∈ opcodeMap, (0x8128 : Word) &&& row.mask ≠ row.bits := by decide

/-- At the last address where a fetch fits, with the `CPU` scheduled; also a witness of a decoded instruction there. -/
theorem witness_AStepRunsTheDecodedInstruction :
    let s := ((State.reset.setPc 0xFFE).setMem [(0xFFE, 0x12), (0xFFF, 0x34)]).setSchedule [.cpu, .timer]
    Live s ∧ s.turn = .cpu ∧ s.pc.toNat + 2 ≤ Params.memSize ∧
      decode (s.mem.read s.pc.toNat ++ s.mem.read (s.pc.toNat + 1)) = .ok (.jp 0x234) := by decide
theorem witness_AFetchOutsideMemoryFaults :
    let s := cpuNext.setPc 0xFFF
    Live s ∧ s.turn = .cpu ∧ Params.memSize < s.pc.toNat + 2 := by decide
theorem witness_AnIllegalWordFaults :
    let s := cpuNext.setPc 0xFFE
    Live s ∧ s.turn = .cpu ∧ s.pc.toNat + 2 ≤ Params.memSize ∧
      WellFormed.illegalWord (s.mem.read s.pc.toNat ++ s.mem.read (s.pc.toNat + 1)) = true := by decide
theorem witness_AnEndedMachineTakesNoStep :
    halted.fault = some ⟨.decode, .illegal, 0x200, some 0, 0⟩ ∧ CleanEnd State.reset.setExit := by decide
theorem witness_ATimerTickDecaysBothCounters :
    Live (busy.setSchedule [.timer]) ∧ (busy.setSchedule [.timer]).turn = .timer := by decide
theorem witness_ASamplerStepAppliesOneSample :
    Live (busy.setSchedule [.sampler, .cpu]) ∧ (busy.setSchedule [.sampler, .cpu]).turn = .sampler := by decide
theorem witness_ARefreshPresentsOneSnapshot :
    Live (busy.setSchedule [.refresh]) ∧ (busy.setSchedule [.refresh]).turn = .refresh := by decide
theorem witness_AFaultingStepChangesNothingElse : next cpuNext (fun t => t.fault.isSome) = true := by decide
theorem witness_EveryStepKeepsTheInvariant : ∃ t, step busy = .next t := ⟨_, rfl⟩
theorem witness_MemoriesThatReadTheSameAreEqual : Memory.wf [(0x000, 0), (0x300, 1)] = true := by decide

/-! Whole-machine rules: a step that does change what the rule speaks of, one for each instruction or agent it names. -/

theorem witness_OnlyTheTwoStoresChangeMemory :
    run 0xF733 ((State.reset.setI 0x300).setReg 7 100) (fun t => t.mem.read 0x300 != 0) = true ∧
    run 0xF055 ((State.reset.setI 0x300).setReg 0 1) (fun t => t.mem.read 0x300 != 0) = true := by decide
theorem witness_ThePcAdvanceRule : State.reset.fault = none ∧ ∃ t, exec (.jpV0 0xFFF) State.reset = .next t :=
  ⟨rfl, _, rfl⟩
theorem witness_OnlyDestinationRegistersChange : run 0x8124 (regs 1 0xFF 2 0xFF) (fun t => t.reg 15 != 0) = true := by
  decide
theorem witness_OnlyCallAndReturnChangeTheStack :
    run 0x2204 State.reset (fun t => t.sp != 0) = true ∧ run 0x00EE (withStack 1) (fun t => t.sp != 1) = true := by decide
theorem witness_OnlyClearAndDrawChangePixels :
    run 0x00E0 (withRow 0 1) (fun t => pixel t.fb 0 63 != true) = true ∧
    run 0xD121 State.reset (fun t => pixel t.fb 0 0 != false) = true := by decide
theorem witness_OnlySamplesChangeTheInputState :
    next ((delivering (.key 3)).setSchedule [.sampler]) (fun t => t.lastKey != none) = true ∧
    run 0xE09E (delivering (.key 3)) (fun t => t.lastKey != none) = true ∧
    run 0xE0A1 (delivering (.key 3)) (fun t => t.lastKey != none) = true ∧
    run 0xF00A (delivering (.key 3)) (fun t => t.lastKey != none) = true := by decide
/-- No schedule: the next agent is free. -/
theorem witness_AnyAgentMayStepExactlyWhenLive : State.reset.schedule = [] ∧ Live State.reset := by decide

/-- Two ticks, a running counter, and no load of either counter. -/
theorem witness_TimersFollowTheirLoadsAndTicks_run :
    ∃ t, Run (fun u => ∀ x, ¬ AboutToExecute u (.ldDtVx x) ∧ ¬ AboutToExecute u (.ldStVx x))
      (busy.setSchedule [.timer, .timer]) [.timer, .timer] t :=
  ⟨_, .cons (fun _ => ⟨fun h => absurd h.2.1 (by decide), fun h => absurd h.2.1 (by decide)⟩) rfl
    (.cons (fun _ => ⟨fun h => absurd h.2.1 (by decide), fun h => absurd h.2.1 (by decide)⟩) rfl (.nil _))⟩
theorem witness_TimersFollowTheirLoadsAndTicks :
    run 0xF115 (State.reset.setReg 1 9) (fun t => decide (0 < t.dt.toNat)) = true ∧
    run 0xF118 (State.reset.setReg 1 9) (fun t => decide (0 < t.st.toNat)) = true := by decide
theorem witness_OnlyTheFiveIndexWritersChangeI :
    run 0xA001 State.reset (fun t => t.I != 0) = true ∧ run 0xF11E (State.reset.setReg 1 1) (fun t => t.I != 0) = true ∧
    run 0xF129 (State.reset.setReg 1 1) (fun t => t.I != 0) = true ∧ run 0xF055 State.reset (fun t => t.I != 0) = true ∧
    run 0xF065 State.reset (fun t => t.I != 0) = true := by decide

/-! Several instructions. -/

theorem witness_AReturnResumesAfterItsCall :
    (withStack 0).sp.val < Config.stackDepth ∧ (withStack 15).sp.val < Config.stackDepth := by decide

/-- The sprite ends at the last byte of memory, and the region is blank. -/
theorem witness_DrawingTwiceRestoresTheFrame :
    let s := (regs 1 62 2 30).setI 0xFF1
    (1 : RegIdx) ≠ 15 ∧ (2 : RegIdx) ≠ 15 ∧ s.I.toNat + (15 : Fin 16).val ≤ Params.memSize ∧
      Params.memSize < s.I.toNat + 16 ∧ ∀ r c, pixel s.fb r c = false := by
  refine ⟨by decide, by decide, by decide, by decide, ?_⟩
  intro r c
  revert r
  have hrow : ∀ r : Fin 32, State.reset.fb[r.val] = 0 := by decide
  intro r
  show (State.reset.fb[r.val]).getLsbD _ = false
  rw [hrow r]; simp

/-- A sprite bit lies on a pixel: glyph 0 at the corner. -/
theorem witness_SpriteSets : SpriteSets State.reset 0 0 5 0 3 := ⟨0, 3, by decide⟩

/-- No sprite bit lies anywhere: no row is drawn. -/
theorem witness_SpriteSets_none : ∀ r c, ¬ SpriteSets State.reset 0 0 0 r c := by
  rintro r c ⟨i, j, h, -⟩
  exact Nat.not_lt_zero _ h

theorem witness_ALoadRestoresDumpedRegisters :
    (State.reset.setI 0xFF0).I.toNat + (15 : RegIdx).val + 1 ≤ Params.memSize := by decide

/-- The two bytes of the next instruction, at 0x202 and 0x203, are registers 0 and 1. -/
theorem witness_AStoreIsSeenByTheNextFetch :
    let s := State.reset.setI 0x202
    s.I.toNat + (1 : RegIdx).val + 1 ≤ Params.memSize ∧ (1 : RegIdx).val = (0 : RegIdx).val + 1 ∧ (1 : RegIdx) ≤ 1 ∧
      (s.pc + 2).toNat = s.I.toNat + (0 : RegIdx).val := by decide

/-! One instruction. The match hypotheses of `Encodes` are met by the words of the decoding tests above. -/

theorem witness_RetPopsAndAddsTwo :
    (withStack 16).sp.val = (15 : Fin Config.stackDepth).val + 1 ∧
    (withStack 1).sp.val = (0 : Fin Config.stackDepth).val + 1 ∧ (withStack 0).sp.val = 0 := by decide
theorem witness_CallPushesItsOwnAddress :
    (withStack 0).sp.val = (0 : Fin Config.stackDepth).val ∧ (withStack 15).sp.val = (15 : Fin Config.stackDepth).val ∧
    (withStack 16).sp.val = Config.stackDepth := by decide
theorem witness_flag_operations_destination : (14 : RegIdx) ≠ 15 := by decide

/-- `DRW` with a sprite up to the last byte, one byte past it, and with no rows at all. -/
theorem witness_DrwTogglesExactlyTheSpritePixels :
    (State.reset.setI 0xFFF).I.toNat + (1 : Fin 16).val ≤ Params.memSize ∧
    ((2 : Fin 16).val ≠ 0 ∧ Params.memSize < (State.reset.setI 0xFFF).I.toNat + (2 : Fin 16).val) ∧
    (0 : Fin 16).val = 0 := by decide

/-- A draw with a collision, and one without. -/
theorem witness_DrwTogglesExactlyTheSpritePixels_flag :
    run 0xD121 (withRow 0 0x8000000000000000) (fun t => pixel t.fb 0 0 == false && t.reg 15 == 1) = true ∧
    run 0xD121 State.reset (fun t => pixel t.fb 0 0 == true && t.reg 15 == 0) = true := by decide
theorem witness_TheTwoKeySkipsSampleFirst :
    ((State.reset.setReg 2 15).reg 2).toNat = (15 : KeyIdx).val ∧ 15 < ((State.reset.setReg 2 16).reg 2).toNat := by decide
theorem witness_LdVxKWaitsForAKey : (delivering (.key 15)).keyIn = .key 15 :: [] := by decide

/-- Each of the three kinds of sample is one that the port can deliver: a key completes the wait, the others do not. -/
theorem witness_LdVxKWaitsForAKey_waits :
    run 0xF30A (delivering .none) (fun t => t.pc == 0x200 && t.reg 3 == 0) = true ∧
    run 0xF30A (delivering .exit) (fun t => t.pc == 0x200 && t.reg 3 == 0) = true := by decide
theorem witness_LdBVxStoresTheDecimalDigits :
    (State.reset.setI 0xFFD).I.toNat + 3 ≤ Params.memSize ∧ Params.memSize < (State.reset.setI 0xFFE).I.toNat + 3 := by
  decide

/-- The two block transfers: sixteen bytes up to the last one, one byte too many, and a single byte at the very end. -/
theorem witness_block_transfers :
    (State.reset.setI 0xFF0).I.toNat + (15 : RegIdx).val + 1 ≤ Params.memSize ∧
    Params.memSize < (State.reset.setI 0xFF1).I.toNat + (15 : RegIdx).val + 1 ∧
    (State.reset.setI 0xFFF).I.toNat + (0 : RegIdx).val + 1 ≤ Params.memSize := by decide
theorem witness_BootLoadsFontAndImage : Config.loadBase + (List.replicate 3584 (0 : Byte)).length ≤ Params.memSize := by
  rw [List.length_replicate]; decide
/-- Two steps of other agents after the load, and then the `CPU`'s turn. -/
theorem witness_TheFirstInstructionIsTheImagesFirstWord :
    Config.loadBase + (([0x60] : List Byte).length + 2) ≤ Params.memSize ∧
    decode ((0x22 : Byte) ++ (0x04 : Byte)) = .ok (.call 0x204) ∧
    ∃ s, Run (fun u => u.turn ≠ .cpu) ((State.boot [0x22, 0x04, 0x60]).setSchedule [.timer, .refresh, .cpu])
      [.timer, .refresh] s ∧ Live s ∧ s.turn = .cpu :=
  ⟨by decide, by decide, _, .cons (by decide) rfl (.cons (by decide) rfl (.nil _)), ⟨rfl, rfl⟩, rfl⟩
theorem witness_BootRefusesAnImageTooLong :
    Params.memSize < Config.loadBase + (List.replicate 3585 (0 : Byte)).length := by rw [List.length_replicate]; decide
theorem witness_APlacedWordIsRunNext : decodeTableWord 16 0x6001 = some (.ldVxKk 0 1) := by decide
theorem witness_APointQueryReadsOnePixel : (32 ≤ 32 ∨ 64 ≤ 0) ∧ (32 ≤ 31 ∨ 64 ≤ 64) := by decide

end Sys2Proof.Tests
end

/-! # Proofs of the statements about the state (spec/10_state.md)

The frame statements all say who may have changed one part of the state. They follow from `step_changes`, cut down to the
parts that only an instruction writes, and from one `↔` per part that lists the instructions that may touch it. -/

namespace Sys2Proof

open Machine

/-! ## Which instructions may touch a part -/

theorem mayTouch_stack_iff {i : Instr} {s : State} : mayTouch i s .stack ↔ (∃ nnn, i = .call nnn) ∨ i = .ret := by
  cases i <;> simp [mayTouch]

theorem mayTouch_pixel_iff {i : Instr} {s : State} {r : Fin 32} {c : Fin 64} :
    mayTouch i s (.pixel r c) ↔ i = .cls ∨ ∃ x y n, i = .drw x y n := by
  cases i <;> simp [mayTouch]

theorem mayTouch_index_iff {i : Instr} {s : State} :
    mayTouch i s .index ↔
      (∃ nnn, i = .ldINnn nnn) ∨ ∃ x, i = .addIVx x ∨ i = .ldFVx x ∨ i = .ldMemVx x ∨ i = .ldVxMem x := by
  cases i <;> simp [mayTouch]

/-- The parts that a sample applies its value to: the key flags, the latch and `EXIT` (R22, R23). -/
def Part.ofInput : Part → Prop
  | .key _ | .lastKey | .exit => True
  | _ => False

theorem Part.ofInput_iff {p : Part} : p.ofInput ↔ p = .lastKey ∨ p = .exit ∨ ∃ k, p = .key k := by
  cases p <;> simp [Part.ofInput]

theorem mayTouch_input_iff {i : Instr} {s : State} {p : Part} (hp : p.ofInput) :
    mayTouch i s p ↔ ∃ x, i = .skp x ∨ i = .sknp x ∨ i = .ldVxK x := by
  obtain rfl | rfl | ⟨k, rfl⟩ := Part.ofInput_iff.1 hp <;> cases i <;> simp [mayTouch]

/-! ## Who changed a part -/

/-- The parts that no agent but the `CPU` writes, and the `CPU` only by an instruction. -/
def Part.ofInstr : Part → Prop
  | .reg _ | .index | .pc | .stack | .memByte _ | .pixel _ _ | .randPort => True
  | _ => False

/-- The timer and the refresh change none of these parts, so an instruction or the sampler did. -/
theorem step_changes_by_instr_or_sample {s t : State} {p : Part} (h : step s = .next t) (hne : ¬ p.same s t)
    (hp : p.ofInstr ∨ p.ofInput) :
    (∃ i, AboutToExecute s i ∧ mayTouch i s p) ∨ (s.turn = .sampler ∧ p.ofSample) := by
  have hf : p ≠ .fault := by rintro rfl; exact hp.elim id id
  have ht : ¬ p.ofTurn := by cases p <;> simp_all [Part.ofTurn, Part.ofInstr, Part.ofInput]
  obtain ⟨i, hi, hm, -⟩ | ⟨-, rfl | rfl, -⟩ | hs | ⟨-, rfl⟩ := step_changes h hne hf ht
  · exact .inl ⟨i, hi, hm⟩
  · exact (hp.elim id id).elim
  · exact (hp.elim id id).elim
  · exact .inr hs
  · exact (hp.elim id id).elim

/-- A step that changes a part that only instructions write executes an instruction that may touch it. -/
theorem step_changes_by_instr {s t : State} {p : Part} (h : step s = .next t) (hne : ¬ p.same s t) (hp : p.ofInstr) :
    ∃ i, AboutToExecute s i ∧ mayTouch i s p := by
  obtain hi | ⟨-, hs⟩ := step_changes_by_instr_or_sample h hne (.inl hp)
  · exact hi
  · cases p <;> simp_all [Part.ofSample, Part.ofInstr]

/-- Settles O21: a changed register is changed by an instruction, and the frame of an instruction is `mayWriteReg`. -/
theorem onlyDestinationRegistersChange : Obligations.OnlyDestinationRegistersChange := by
  intro s t r h hne
  exact step_changes_by_instr (p := .reg r) h hne trivial

/-- Settles O22, by the instructions that may touch the stack. -/
theorem onlyCallAndReturnChangeTheStack : Obligations.OnlyCallAndReturnChangeTheStack := by
  intro s t h hne
  obtain ⟨i, hi, hm⟩ := step_changes_by_instr h hne trivial
  obtain ⟨nnn, rfl⟩ | rfl := mayTouch_stack_iff.1 hm
  · exact .inl ⟨nnn, hi⟩
  · exact .inr hi

/-- Settles O23, by the instructions that may touch a pixel. -/
theorem onlyClearAndDrawChangePixels : Obligations.OnlyClearAndDrawChangePixels := by
  intro s t r c h hne
  obtain ⟨i, hi, hm⟩ := step_changes_by_instr (p := .pixel r c) h hne trivial
  obtain rfl | ⟨x, y, n, rfl⟩ := mayTouch_pixel_iff.1 hm
  · exact .inl hi
  · exact .inr ⟨x, y, n, hi⟩

/-- Settles O24: of the agents only the sampler and the `CPU` sample, the latter in three instructions. -/
theorem onlySamplesChangeTheInputState : Obligations.OnlySamplesChangeTheInputState := by
  intro s t p h hp hne
  have hin : p.ofInput := Part.ofInput_iff.2 hp
  obtain ⟨i, hi, hm⟩ | ⟨hs, -⟩ := step_changes_by_instr_or_sample h hne (.inr hin)
  · obtain ⟨x, rfl | rfl | rfl⟩ := (mayTouch_input_iff hin).1 hm
    · exact .inr ⟨x, .inl hi⟩
    · exact .inr ⟨x, .inr (.inl hi)⟩
    · exact .inr ⟨x, .inr (.inr hi)⟩
  · exact .inl hs

/-- Settles O26, by the instructions that may touch `I`. -/
theorem onlyTheFiveIndexWritersChangeI : Obligations.OnlyTheFiveIndexWritersChangeI := by
  intro s t h hne
  obtain ⟨i, hi, hm⟩ := step_changes_by_instr (p := .index) h hne trivial
  obtain ⟨nnn, rfl⟩ | ⟨x, rfl | rfl | rfl | rfl⟩ := mayTouch_index_iff.1 hm
  · exact .inl ⟨nnn, hi⟩
  · exact .inr ⟨x, .inl hi⟩
  · exact .inr ⟨x, .inr (.inl hi)⟩
  · exact .inr ⟨x, .inr (.inr (.inl hi))⟩
  · exact .inr ⟨x, .inr (.inr (.inr hi))⟩

/-! ## The program counter (R16) -/

/-- An instruction that raised a fault left `pc` where it was. -/
theorem exec_pc_of_fault {i : Instr} {s t : State} (hs : s.fault = none) (h : exec i s = .next t)
    (hf : t.fault ≠ none) : t.pc = s.pc := by
  obtain ⟨c, n, rfl⟩ | hu := exec_cases h
  · rfl
  · have hsame : t.fault = s.fault := hu .fault id
    exact absurd (hsame.trans hs) hf

/-- The answer of a faulting meaning carries a fault. -/
theorem fault_ne_none_of_raise {s t : State} {c : FaultCause} {n : Nat}
    (h : Host.Outcome.next (s.raise c n) = (.next t : Result)) : t.fault ≠ none := by
  cases h
  simp

@[simp] theorem Machine.State.sample_pc (s : State) : s.sample.2.pc = s.pc := s.sample_unchanged .pc id

@[simp] theorem Machine.State.drawRand_pc (s : State) : s.drawRand.2.pc = s.pc := by
  rw [s.drawRand_frame, State.setRandIn_pc]

/-- `RET` without a fault: the newest entry plus 2 (R101). -/
theorem execRet_pc {s t : State} (h : execRet s = .next t) (hf : t.fault = none) :
    ∃ k : Fin Config.stackDepth, s.sp.val = k.val + 1 ∧ t.pc = s.stack[k.val] + 2 := by
  unfold execRet at h
  obtain ⟨-, hpop⟩ | ⟨k, sp, hk, -, hpop⟩ := s.pop?_cases <;> rw [hpop] at h
  · exact absurd hf (fault_ne_none_of_raise h)
  · cases h
    exact ⟨k, hk, rfl⟩

/-- `CALL` without a fault: the target (R103). -/
theorem execCall_pc {nnn : BitVec 12} {s t : State} (h : execCall nnn s = .next t) (hf : t.fault = none) :
    t.pc = zext16 nnn := by
  unfold execCall at h
  obtain ⟨-, hpush⟩ | ⟨-, u, hpush, -⟩ := s.push?_cases s.pc <;> rw [hpush] at h
  · exact absurd hf (fault_ne_none_of_raise h)
  · cases h
    rfl

/-- A key skip without a fault: by the key flag after the sample (R160, R161). -/
theorem skipOnKey_pc {wanted : Bool} {x : RegIdx} {s t : State} (h : skipOnKey wanted x s = .next t)
    (hf : t.fault = none) :
    ∃ k : KeyIdx, (s.reg x).toNat = k.val ∧ t.pc = s.pc + (if t.key k = wanted then 4 else 2) := by
  unfold skipOnKey at h
  obtain ⟨k, hk, hidx⟩ | ⟨-, hidx⟩ := keyIndex?_cases (s.reg x) <;> rw [hidx] at h
  · cases h
    refine ⟨k, hk, ?_⟩
    by_cases hkey : s.sample.2.key k = wanted <;> simp [hkey]
  · exact absurd hf (fault_ne_none_of_raise h)

theorem endKeyWait_pc_of_same {x : RegIdx} {s u : State} (v : KeySample) (h : s.pc = u.pc) :
    (endKeyWait x v s).pc = (endKeyWait x v u).pc := by
  cases v <;> simp [endKeyWait, h]

@[simp] theorem endKeyWait_keyIn (x : RegIdx) (v : KeySample) (s : State) : (endKeyWait x v s).keyIn = s.keyIn := by
  cases v <;> rfl

@[simp] theorem endKeyWait_draws (x : RegIdx) (v : KeySample) (s : State) : (endKeyWait x v s).draws = s.draws := by
  cases v <;> rfl

/-- The key wait takes one sample, and `pc` goes where that sample sends it (R162). -/
theorem execLdVxK_pc {x : RegIdx} {s t : State} (h : execLdVxK x s = .next t) :
    ∃ v, KeyDelivered v s t ∧ t.pc = (endKeyWait x v s).pc := by
  cases h
  refine ⟨s.sample.1, ?_, endKeyWait_pc_of_same _ s.sample_pc⟩
  simpa [KeyDelivered] using s.sample_delivers

/-- `DRW` without a fault (R150). -/
theorem execDrw_pc {x y : RegIdx} {n : Fin 16} {s t : State} (h : execDrw x y n s = .next t) (hf : t.fault = none) :
    t.pc = s.pc + 2 := by
  unfold execDrw at h
  obtain ⟨-, hb⟩ | ⟨-, -, hb⟩ := s.bytesAtI?_cases n.val <;> rw [hb] at h
  · cases h
    rfl
  · exact absurd hf (fault_ne_none_of_raise h)

/-- The additions to `I` always answer, since `I_OVERFLOW` is `wrap` (the spec's decision D17). -/
theorem indexAdd_params (i : Addr) (v : Nat) :
    indexAdd Params.indexOverflow i v = .ok (BitVec.ofNat 16 (i.toNat + v)) :=
  indexAdd_wrap i v

/-- `ADD I, Vx` (R173). -/
theorem execAddIVx_pc {x : RegIdx} {s t : State} (h : execAddIVx x s = .next t) : t.pc = s.pc + 2 := by
  unfold execAddIVx at h
  rw [indexAdd_params] at h
  cases h
  rfl

/-- `LD B, Vx` without a fault (R175). -/
theorem execLdBVx_pc {x : RegIdx} {s t : State} (h : execLdBVx x s = .next t) (hf : t.fault = none) :
    t.pc = s.pc + 2 := by
  unfold execLdBVx at h
  obtain ⟨-, hst⟩ | ⟨-, hst⟩ := s.storeAtI?_cases (decimalDigits (s.reg x)) <;> rw [hst] at h
  · cases h
    rfl
  · exact absurd hf (fault_ne_none_of_raise h)

/-- `LD [I], Vx` without a fault (R176). -/
theorem execLdMemVx_pc {x : RegIdx} {s t : State} (h : execLdMemVx x s = .next t) (hf : t.fault = none) :
    t.pc = s.pc + 2 := by
  unfold execLdMemVx at h
  rw [indexAdd_params] at h
  obtain ⟨-, hst⟩ | ⟨-, hst⟩ := s.storeAtI?_cases (s.firstRegs (x.val + 1)) <;> rw [hst] at h
  · cases h
    rfl
  · exact absurd hf (fault_ne_none_of_raise h)

/-- `LD Vx, [I]` without a fault (R177). -/
theorem execLdVxMem_pc {x : RegIdx} {s t : State} (h : execLdVxMem x s = .next t) (hf : t.fault = none) :
    t.pc = s.pc + 2 := by
  unfold execLdVxMem at h
  rw [indexAdd_params] at h
  obtain ⟨-, hb⟩ | ⟨-, -, hb⟩ := s.bytesAtI?_cases (x.val + 1) <;> rw [hb] at h
  · cases h
    rfl
  · exact absurd hf (fault_ne_none_of_raise h)

/-- Settles O20: a fault leaves `pc` alone; without one, each instruction by its own rule, and the default +2. -/
theorem thePcAdvanceRule : Obligations.ThePcAdvanceRule := by
  intro i s t hs h
  refine ⟨exec_pc_of_fault hs h, fun hf => ?_⟩
  cases i
  case ret => exact execRet_pc h hf
  case jp nnn => cases h; exact toNat_zext16 nnn
  case call nnn => simp only [execCall_pc h hf, toNat_zext16]
  case jpV0 nnn => cases h; exact BitVec.toNat_ofNat _ _
  case seVxKk x kk => cases h; by_cases hc : s.reg x = kk <;> simp [hc]
  case sneVxKk x kk => cases h; by_cases hc : s.reg x = kk <;> simp [hc]
  case seVxVy x y => cases h; by_cases hc : s.reg x = s.reg y <;> simp [hc]
  case sneVxVy x y => cases h; by_cases hc : s.reg x = s.reg y <;> simp [hc]
  case skp x => exact skipOnKey_pc h hf
  case sknp x =>
    obtain ⟨k, hk, hpc⟩ := skipOnKey_pc h hf
    refine ⟨k, hk, hpc.trans ?_⟩
    cases t.key k <;> rfl
  case ldVxK x =>
    obtain ⟨v, hv, hpc⟩ := execLdVxK_pc h
    refine ⟨v, hv, hpc.trans ?_⟩
    cases v <;> rfl
  case rndVxKk x kk => cases h; simp
  case drw x y n => exact execDrw_pc h hf
  case addIVx x => exact execAddIVx_pc h
  case ldBVx x => exact execLdBVx_pc h hf
  case ldMemVx x => exact execLdMemVx_pc h hf
  case ldVxMem x => exact execLdVxMem_pc h hf
  all_goals cases h; rfl

/-! ## Reset (R27) -/

/-- Settles O15, field by field: memory is empty, no key is pressed, the stack is empty and neither end has come. -/
theorem theInvariantHoldsAtReset : Obligations.TheInvariantHoldsAtReset where
  mem := rfl
  keys k := by simp
  stack k hk := by simp at hk
  record := rfl
  oneEnd := by simp

/-- The reset contents: the font from address 0, then zeros (R52, R263). -/
theorem Machine.Memory.read_nil (a : Nat) :
    Memory.read [] a = if h : a < Params.font.length then Params.font[a] else 0 := by
  simp only [Memory.read, Memory.unlisted, Params.fontBase, Nat.sub_zero]
  split
  · exact List.getD_eq_getElem _ _ ‹_›
  · exact List.getD_eq_default _ _ (by omega)

/-- In a live machine a step answers, whichever agent's turn it is. -/
theorem step_next_of_live {s : State} (h : Live s) : ∃ t, step s = .next t := by
  rw [step_of_live h]
  cases s.turn with
  | cpu => exact cpuStep_next _
  | timer => exact ⟨_, rfl⟩
  | sampler => exact ⟨_, rfl⟩
  | refresh => exact ⟨_, rfl⟩

/-- Settles O56: an image that fits is the one thing in which the booted state differs from the reset state. -/
theorem bootLoadsFontAndImage : Obligations.BootLoadsFontAndImage := by
  intro image hfit
  rw [State.boot_fits hfit]
  refine ⟨Memory.read_writeBytes_inside _ _ _, fun a ha => ?_, rfl, rfl, rfl, State.reset_reg, rfl, rfl, rfl, rfl,
    pixel_clearedDisplay, State.reset_key, rfl, ⟨rfl, rfl⟩, fun a => step_next_of_live ⟨rfl, rfl⟩, rfl⟩
  exact (Memory.read_writeBytes_outside _ _ _ _ ha).trans (Memory.read_nil a)

end Sys2Proof

/-! # Proofs of the statements about memory (spec/20_memory.md)

The canonical form is read off from the reads: its cells are the pairs (address, byte read there) with a byte that differs
from the reset contents. The frame of memory comes from `step_changes_by_instr`, like the frames of the other parts. -/

namespace Sys2Proof

open Machine

/-! ## The canonical form (log 14) -/

/-- An address that no cell names reads as the reset contents. -/
theorem Machine.Memory.read_of_not_listed {m : Memory} {a : Nat} (h : ∀ c ∈ m, c.1 ≠ a) :
    m.read a = Memory.unlisted a := by
  induction m with
  | nil => rfl
  | cons c rest ih =>
    obtain ⟨hc, hrest⟩ := List.forall_mem_cons.1 h
    rw [Memory.read, if_neg hc, ih hrest]

/-- The cells of a canonical memory stand in the order of their addresses. -/
theorem Machine.Memory.pairwise_of_wf {m : Memory} (h : m.wf = true) :
    m.Pairwise (InvImage (· < ·) Prod.fst) := by
  induction m with
  | nil => exact .nil
  | cons c rest ih =>
    obtain ⟨-, -, hlt, hrest⟩ := (Memory.wf_cons _ _ _).1 h
    exact .cons hlt (ih hrest)

/-- The cells of a canonical memory: the addresses that do not read as the reset contents, each with what it reads as. -/
theorem Machine.Memory.mem_iff_of_wf {m : Memory} (h : m.wf = true) (a : Nat) (v : Byte) :
    (a, v) ∈ m ↔ m.read a = v ∧ v ≠ Memory.unlisted a := by
  induction m with
  | nil => simp [Memory.read, eq_comm]
  | cons c rest ih =>
    obtain ⟨b, w⟩ := c
    obtain ⟨-, hw, hlt, hrest⟩ := (Memory.wf_cons b w rest).1 h
    rw [List.mem_cons, ih hrest, Memory.read]
    by_cases hba : b = a
    · subst hba
      have hreset : Memory.read rest b = Memory.unlisted b :=
        Memory.read_of_not_listed fun c hc => (hlt c hc).ne'
      grind
    · simp [hba, Ne.symm hba]

/-- Settles O18: the reads fix the cells, and the cells stand in the order of their addresses. -/
theorem memoriesThatReadTheSameAreEqual : Obligations.MemoriesThatReadTheSameAreEqual := by
  intro m n hm hn hread
  refine (Memory.pairwise_of_wf hm).eq_of_mem_iff (Memory.pairwise_of_wf hn) fun ⟨a, v⟩ => ?_
  rw [Memory.mem_iff_of_wf hm, Memory.mem_iff_of_wf hn, hread]

/-! ## Who changes memory (R40) -/

theorem mayTouch_memByte_iff {i : Instr} {s : State} {a : Nat} :
    mayTouch i s (.memByte a) ↔
      ∃ x, (i = .ldBVx x ∧ s.I.toNat ≤ a ∧ a < s.I.toNat + 3) ∨
        (i = .ldMemVx x ∧ s.I.toNat ≤ a ∧ a ≤ s.I.toNat + x.val) := by
  cases i <;> simp [mayTouch]

/-- Settles O19, by the instructions that may touch a byte of memory. -/
theorem onlyTheTwoStoresChangeMemory : Obligations.OnlyTheTwoStoresChangeMemory := by
  intro s t a h hne
  obtain ⟨i, hi, hm⟩ := step_changes_by_instr (p := .memByte a) h hne trivial
  obtain ⟨x, ⟨rfl, ha⟩ | ⟨rfl, ha⟩⟩ := mayTouch_memByte_iff.1 hm
  · exact ⟨x, .inl ⟨hi, ha⟩⟩
  · exact ⟨x, .inr ⟨hi, ha⟩⟩

/-! ## A store and the fetch after it (R59) -/

/-- A block store that fits: the bytes of the registers at `I`, then `I` 8 higher and the default +2 (R176). -/
theorem exec_ldMemVx_of_fits {s : State} {x : RegIdx} (h : s.I.toNat + x.val + 1 ≤ Params.memSize) :
    exec (.ldMemVx x) s = .next (((s.setMem (s.mem.writeBytes s.I.toNat (s.firstRegs (x.val + 1)))).setI
      (BitVec.ofNat 16 (s.I.toNat + blockAdvance))).advance 2) := by
  obtain ⟨-, hst⟩ | ⟨hout, -⟩ := s.storeAtI?_cases (s.firstRegs (x.val + 1))
  · simp only [exec, execLdMemVx, hst, indexAdd_params]
  · rw [s.length_firstRegs _ (by omega)] at hout
    omega

/-- After a block store the byte at `I + r` is that of register r (R176). -/
theorem read_writeBytes_firstRegs (s : State) {r x : RegIdx} (h : r ≤ x) :
    (s.mem.writeBytes s.I.toNat (s.firstRegs (x.val + 1))).read (s.I.toNat + r.val) = s.reg r := by
  have hlen : r.val < (s.firstRegs (x.val + 1)).length := by
    rw [s.length_firstRegs _ (by omega)]
    exact Nat.lt_succ_of_le h
  rw [Memory.read_writeBytes_inside _ _ _ _ hlen, s.getElem_firstRegs _ _ hlen r.isLt]

theorem fetch?_of_fits {s : State} {a : Nat} (hpc : s.pc.toNat = a) (h : a + 2 ≤ Params.memSize) :
    s.fetch? = some (s.mem.read a ++ s.mem.read (a + 1)) := by
  subst hpc
  obtain ⟨-, hf⟩ | ⟨hout, -⟩ := s.fetch?_cases
  · exact hf
  · omega

/-- Settles O30: the next fetch reads the bytes at `I + k` and `I + k + 1`, where the store has put registers k and
k + 1. -/
theorem aStoreIsSeenByTheNextFetch : Obligations.AStoreIsSeenByTheNextFetch := by
  intro s x k l hfit hl hlx hpc
  have hle : l.val ≤ x.val := hlx
  have hkx : k ≤ x := Fin.le_def.2 (by omega)
  refine ⟨_, exec_ldMemVx_of_fits hfit, (fetch?_of_fits hpc (by omega)).trans ?_⟩
  rw [State.advance_mem, State.setI_mem, State.setMem_mem, read_writeBytes_firstRegs s hkx, Nat.add_assoc, ← hl,
    read_writeBytes_firstRegs s hlx]

/-! ## A fetch outside memory (R44) -/

theorem fetch?_of_outside {s : State} (h : Params.memSize < s.pc.toNat + 2) : s.fetch? = none :=
  s.fetch?_cases.elim (fun ⟨hin, _⟩ => absurd hin (by omega)) And.right

theorem cpuStep_of_fetch?_none {s : State} (h : s.fetch? = none) : cpuStep s = .next (s.raise .mem s.pc.toNat) := by
  simp only [cpuStep, h]

theorem Part.same_trans {s t u : State} {p : Part} (hst : p.same s t) (htu : p.same t u) : p.same s u := by
  cases p
  case stack =>
    obtain ⟨hsp, hentries⟩ := hst
    obtain ⟨hsp', hentries'⟩ := htu
    exact ⟨hsp'.trans hsp, fun k hk => (hentries' k (hsp ▸ hk)).trans (hentries k hk)⟩
  all_goals exact htu.trans hst

/-- A fault taken in a turn changes `FAULT` and the turn (R204). -/
theorem popTurn_raise_unchanged (s : State) (c : FaultCause) (n : Nat) :
    UnchangedExcept (fun p => p = .fault ∨ p.ofTurn) s (s.popTurn.raise c n) := fun p hp =>
  Part.same_trans (s.popTurn_unchanged p (hp ∘ .inr)) (s.popTurn.raise_unchanged c n p (hp ∘ .inl))

/-- Settles O7: the `CPU` takes its turn and the fault of the fetch, which records no word. -/
theorem aFetchOutsideMemoryFaults : Obligations.AFetchOutsideMemoryFaults := by
  intro s hlive hturn hout
  have hfetch : s.popTurn.fetch? = none := fetch?_of_outside hout
  refine ⟨s.popTurn.raise .mem s.pc.toNat, ?_, ?_, turnTaken_of_same rfl rfl, popTurn_raise_unchanged _ _ _⟩
  · rw [step_of_live hlive, hturn]
    exact cpuStep_of_fetch?_none hfetch
  · simp only [State.raise_fault, State.faultRecord, hfetch, FaultCause.cls, State.popTurn_pc]

end Sys2Proof

/-! # Proofs of the statements about the encoding (spec/30_encoding.md)

The opcode map is the specification of the decoder: `decode_eq_ok_iff` says that a word decodes to an instruction exactly
when it matches a row that reads as that instruction. The other direction of the round trip and the table of illegal words
follow from it row by row. The fields that decide (family, low byte, low nibble) are spelled as numbers throughout, which
is how the decoder and R81's table name them. -/

namespace Sys2Proof

/-! ## The fields that decide, as numbers (R72) -/

theorem Field.toNat_fam (w : Word) : (Field.fam w).toNat = w.toNat / 0x1000 := by
  rw [Field.fam, BitVec.extractLsb'_toNat, Nat.shiftRight_eq_div_pow]
  exact Nat.mod_eq_of_lt (by omega)

theorem Field.toNat_kk (w : Word) : (Field.kk w).toNat = w.toNat % 0x100 := by
  rw [Field.kk, BitVec.extractLsb'_toNat, Nat.shiftRight_zero]

theorem Field.val_n (w : Word) : (Field.n w).val = w.toNat % 0x10 := by
  simp only [Field.n, Field.ofNibble, BitVec.extractLsb'_toNat, Nat.shiftRight_zero]

/-! ## The three masks of the opcode map (R80) -/

theorem and_mask_fam (w : Word) : w &&& 0xF000#16 = formatA (Field.fam w) 0 := by
  conv_lhs => rw [← formatA_fields w]
  exact (BitVec.and_append (x₂ := 0xF#4) (y₂ := 0#12)).trans
    (congrArg₂ formatA BitVec.and_allOnes BitVec.and_zero)

theorem and_mask_fam_kk (w : Word) : w &&& 0xF0FF#16 = formatXK (Field.fam w) 0 (Field.kk w) := by
  conv_lhs => rw [← formatXK_fields w]
  exact (BitVec.and_append (x₂ := 0xF#4) (y₂ := 0x0#4 ++ 0xFF#8)).trans
    (congrArg₂ _ BitVec.and_allOnes (BitVec.and_append.trans (congrArg₂ _ BitVec.and_zero BitVec.and_allOnes)))

theorem and_mask_fam_n (w : Word) : w &&& 0xF00F#16 = formatXYN (Field.fam w) 0 0 (Field.n w) := by
  conv_lhs => rw [← formatXYN_fields w]
  exact (BitVec.and_append (x₂ := 0xF#4) (y₂ := 0x0#4 ++ (0x0#4 ++ 0xF#4))).trans
    (congrArg₂ _ BitVec.and_allOnes (BitVec.and_append.trans (congrArg₂ _ BitVec.and_zero
      (BitVec.and_append.trans (congrArg₂ _ BitVec.and_zero BitVec.and_allOnes)))))

section
variable {w b : Word}

theorem and_mask_fam_eq_iff (hb : b &&& 0xF000#16 = b) :
    w &&& 0xF000#16 = b ↔ (Field.fam w).toNat = b.toNat / 0x1000 := by
  rw [← Field.toNat_fam, BitVec.toNat_inj]
  refine ⟨fun h => Field.fam_of_match h rfl, fun h => ?_⟩
  rw [← hb, and_mask_fam, and_mask_fam, h]

theorem and_mask_fam_kk_eq_iff (hb : b &&& 0xF0FF#16 = b) :
    w &&& 0xF0FF#16 = b ↔ (Field.fam w).toNat = b.toNat / 0x1000 ∧ (Field.kk w).toNat = b.toNat % 0x100 := by
  rw [← Field.toNat_fam, ← Field.toNat_kk, BitVec.toNat_inj, BitVec.toNat_inj]
  refine ⟨fun h => ⟨Field.fam_of_match h rfl, Field.kk_of_match h rfl⟩, fun ⟨hf, hk⟩ => ?_⟩
  rw [← hb, and_mask_fam_kk, and_mask_fam_kk, hf, hk]

theorem and_mask_fam_n_eq_iff (hb : b &&& 0xF00F#16 = b) :
    w &&& 0xF00F#16 = b ↔ (Field.fam w).toNat = b.toNat / 0x1000 ∧ (Field.n w).val = b.toNat % 0x10 := by
  rw [← Field.toNat_fam, ← Field.val_n, BitVec.toNat_inj, Fin.val_inj]
  refine ⟨fun h => ⟨Field.fam_of_match h rfl, Field.n_of_match h rfl⟩, fun ⟨hf, hn⟩ => ?_⟩
  rw [← hb, and_mask_fam_n, and_mask_fam_n, hf, hn]

end

/-! ## Decoding is the opcode map (R75 to R78, R80) -/

section
variable {w : Word} {i : Instr}

theorem decodeFamily0_eq_ok_iff :
    decodeFamily0 w = .ok i ↔
      ((Field.kk w).toNat = 0xE0 ∧ .cls = i) ∨ ((Field.kk w).toNat = 0xEE ∧ .ret = i) := by
  unfold decodeFamily0
  split
  · simp_all
  · split <;> simp_all [← BitVec.toNat_inj]

theorem decodeFamily8_eq_ok_iff :
    decodeFamily8 w = .ok i ↔
      ((Field.n w).val = 0x0 ∧ .ldVxVy (Field.x w) (Field.y w) = i) ∨
      ((Field.n w).val = 0x1 ∧ .orVxVy (Field.x w) (Field.y w) = i) ∨
      ((Field.n w).val = 0x2 ∧ .andVxVy (Field.x w) (Field.y w) = i) ∨
      ((Field.n w).val = 0x3 ∧ .xorVxVy (Field.x w) (Field.y w) = i) ∨
      ((Field.n w).val = 0x4 ∧ .addVxVy (Field.x w) (Field.y w) = i) ∨
      ((Field.n w).val = 0x5 ∧ .subVxVy (Field.x w) (Field.y w) = i) ∨
      ((Field.n w).val = 0x6 ∧ .shrVxVy (Field.x w) (Field.y w) = i) ∨
      ((Field.n w).val = 0x7 ∧ .subnVxVy (Field.x w) (Field.y w) = i) ∨
      ((Field.n w).val = 0xE ∧ .shlVxVy (Field.x w) (Field.y w) = i) := by
  unfold decodeFamily8
  split <;> simp_all

theorem decodeFamilyE_eq_ok_iff :
    decodeFamilyE w = .ok i ↔
      ((Field.kk w).toNat = 0x9E ∧ .skp (Field.x w) = i) ∨ ((Field.kk w).toNat = 0xA1 ∧ .sknp (Field.x w) = i) := by
  unfold decodeFamilyE
  split
  · simp_all
  · split <;> simp_all [← BitVec.toNat_inj]

theorem decodeFamilyF_eq_ok_iff :
    decodeFamilyF w = .ok i ↔
      ((Field.kk w).toNat = 0x07 ∧ .ldVxDt (Field.x w) = i) ∨ ((Field.kk w).toNat = 0x0A ∧ .ldVxK (Field.x w) = i) ∨
      ((Field.kk w).toNat = 0x15 ∧ .ldDtVx (Field.x w) = i) ∨ ((Field.kk w).toNat = 0x18 ∧ .ldStVx (Field.x w) = i) ∨
      ((Field.kk w).toNat = 0x1E ∧ .addIVx (Field.x w) = i) ∨ ((Field.kk w).toNat = 0x29 ∧ .ldFVx (Field.x w) = i) ∨
      ((Field.kk w).toNat = 0x33 ∧ .ldBVx (Field.x w) = i) ∨ ((Field.kk w).toNat = 0x55 ∧ .ldMemVx (Field.x w) = i) ∨
      ((Field.kk w).toNat = 0x65 ∧ .ldVxMem (Field.x w) = i) := by
  unfold decodeFamilyF
  split <;> simp_all

/-- The decoder and the opcode map agree: each of the sixteen families has the rows of the map with that family. -/
theorem decode_eq_ok_iff :
    decode w = .ok i ↔ ∃ row ∈ opcodeMap, w &&& row.mask = row.bits ∧ row.read w = i := by
  have hfam := (Field.fam w).isLt
  simp only [opcodeMap, BitVec.ofNat_eq_ofNat, List.cons_append, List.nil_append, List.mem_cons, List.not_mem_nil,
    or_false, exists_eq_or_imp, exists_eq_left, BitVec.reduceAnd, and_mask_fam_eq_iff, and_mask_fam_kk_eq_iff,
    and_mask_fam_n_eq_iff, and_assoc, BitVec.reduceToNat, Nat.reduceMod, Nat.reduceDiv]
  interval_cases hf : (Field.fam w).toNat <;>
    simp [decode, hf, decodeFamily0_eq_ok_iff, decodeFamily8_eq_ok_iff, decodeFamilyE_eq_ok_iff,
      decodeFamilyF_eq_ok_iff]

theorem forall_decode_ne_ok_iff :
    (∀ i, decode w ≠ .ok i) ↔ ∀ row ∈ opcodeMap, w &&& row.mask ≠ row.bits := by
  refine ⟨fun h row hrow hm => h _ (decode_eq_ok_iff.2 ⟨row, hrow, hm, rfl⟩), fun h i hi => ?_⟩
  obtain ⟨row, hrow, hm, -⟩ := decode_eq_ok_iff.1 hi
  exact h row hrow hm

end

/-! ## Decoding an encoded instruction (R73) -/

theorem decode_encode (i : Instr) : decode (encode i) = .ok i := by
  cases i with
  | cls | ret => decide
  | jp | call | ldINnn | jpV0 => simp [encode, decode, Field.fam_formatA, Field.nnn_formatA]
  | seVxKk | sneVxKk | ldVxKk | addVxKk | rndVxKk =>
    simp [encode, decode, Field.fam_formatXK, Field.x_formatXK, Field.kk_formatXK]
  | seVxVy | sneVxVy | drw =>
    simp [encode, decode, Field.fam_formatXYN, Field.x_formatXYN, Field.y_formatXYN, Field.n_formatXYN]
  | ldVxVy | orVxVy | andVxVy | xorVxVy | addVxVy | subVxVy | shrVxVy | subnVxVy | shlVxVy =>
    simp [encode, decode, decodeFamily8, Field.fam_formatXYN, Field.x_formatXYN, Field.y_formatXYN,
      Field.n_formatXYN]
  | skp | sknp =>
    simp [encode, decode, decodeFamilyE, Field.fam_formatXK, Field.x_formatXK, Field.kk_formatXK]
  | ldVxDt | ldVxK | ldDtVx | ldStVx | addIVx | ldFVx | ldBVx | ldMemVx | ldVxMem =>
    simp [encode, decode, decodeFamilyF, Field.fam_formatXK, Field.x_formatXK, Field.kk_formatXK]

/-- Settles O1: the bytes of an instruction make up its word again, and the word decodes by its format's fields. -/
theorem decodingAnEncodedInstructionGivesItBack : Obligations.DecodingAnEncodedInstructionGivesItBack := by
  intro i rest
  refine ⟨decode_encode i, ?_⟩
  simp only [encodeBytes, List.cons_append, List.nil_append, decodeBytes, wordOfBytes_bytes, decode_encode, Except.map]

/-! ## Encoding a decoded word (R73, R75, R79, R83) -/

section
variable {w : Word} {f : BitVec 4} (hf : (Field.fam w).toNat = f.toNat)
include hf

theorem formatA_eq_self : formatA f (Field.nnn w) = w := by
  rw [← BitVec.eq_of_toNat_eq hf, formatA_fields]

theorem formatXK_eq_self {kk : Byte} (hk : (Field.kk w).toNat = kk.toNat) : formatXK f (Field.x w) kk = w := by
  rw [← BitVec.eq_of_toNat_eq hf, ← BitVec.eq_of_toNat_eq hk, formatXK_fields]

theorem formatXYN_eq_self {n : Fin 16} (hn : (Field.n w).val = n.val) :
    formatXYN f (Field.x w) (Field.y w) n = w := by
  rw [← BitVec.eq_of_toNat_eq hf, ← Fin.ext hn, formatXYN_fields]

/-- Families 5 and 9 are encoded with the low nibble 0 (R79). -/
theorem formatXYN_eq_and_mask : formatXYN f (Field.x w) (Field.y w) 0 = w &&& 0xFFF0#16 := by
  have hmask := formatXYN_and_mask (Field.fam w) (Field.x w) (Field.y w) (Field.n w)
  rw [← BitVec.eq_of_toNat_eq hf, ← hmask, formatXYN_fields]
  rfl

end

theorem and_mask_all (w : Word) : w &&& 0xFFFF#16 = w := BitVec.and_allOnes

/-- What a row reads from a word that matches it is encoded as that word without its ignored digits. For `CLS` and `RET`
the match says it; in the other rows the match gives the family and the sub-op, and the operands are the other fields. -/
theorem encode_read_of_match :
    ∀ row ∈ opcodeMap, ∀ w : Word, w &&& row.mask = row.bits → encode (row.read w) = w &&& careMask (row.read w) := by
  refine List.forall_mem_cons.2 ⟨fun w hm => hm.symm, List.forall_mem_cons.2 ⟨fun w hm => hm.symm, ?_⟩⟩
  simp +contextual [and_mask_fam_eq_iff, and_mask_fam_kk_eq_iff, and_mask_fam_n_eq_iff, encode, careMask, and_mask_all,
    formatA_eq_self, formatXK_eq_self, formatXYN_eq_self, formatXYN_eq_and_mask]

/-- Settles O2, by the row of the opcode map that the word matches. -/
theorem encodingADecodedWordGivesItBack : Obligations.EncodingADecodedWordGivesItBack := by
  intro w i h
  obtain ⟨row, hrow, hm, rfl⟩ := decode_eq_ok_iff.1 h
  exact encode_read_of_match row hrow w hm

/-! ## The illegal words (R81) -/

/-- R81's table is the complement of the opcode map, family by family; in family 8, the ninth, also nibble by nibble. -/
theorem illegalWord_iff_no_row {w : Word} :
    WellFormed.illegalWord w = true ↔ ∀ row ∈ opcodeMap, w &&& row.mask ≠ row.bits := by
  have hfam := (Field.fam w).isLt
  have hn := (Field.n w).isLt
  simp only [WellFormed.illegalWord, ← Field.toNat_fam, ← Field.toNat_kk, ← Field.val_n, Bool.or_eq_true,
    Bool.and_eq_true, Bool.not_eq_true', Bool.or_eq_false_iff, beq_iff_eq, beq_eq_false_iff_ne, opcodeMap,
    BitVec.ofNat_eq_ofNat, List.cons_append, List.nil_append, List.forall_mem_cons, List.not_mem_nil,
    IsEmpty.forall_iff, ne_eq, BitVec.reduceAnd, and_mask_fam_eq_iff, and_mask_fam_kk_eq_iff,
    and_mask_fam_n_eq_iff, BitVec.reduceToNat, Nat.reduceMod, Nat.reduceDiv]
  interval_cases (Field.fam w).toNat
  on_goal 9 => interval_cases (Field.n w).val <;> simp
  all_goals simp [and_assoc]

/-- Settles O3: the illegal words are those that match no row, and those do not decode. -/
theorem exactlyTheIllegalWordsDoNotDecode : Obligations.ExactlyTheIllegalWordsDoNotDecode := by
  intro w
  rw [illegalWord_iff_no_row, forall_decode_ne_ok_iff]

/-! ## The rows of the map (R80) -/

/-- Two rows whose match bits differ on a bit that both masks look at have no word in common. -/
theorem OpcodeRow.disjoint_of_bits_ne {a b : OpcodeRow} (hne : a.bits &&& b.mask ≠ b.bits &&& a.mask) (w : Word)
    (ha : w &&& a.mask = a.bits) : w &&& b.mask ≠ b.bits := by
  intro hb
  refine hne ?_
  rw [← ha, ← hb]
  ac_rfl

theorem opcodeMap_pairwise_bits_ne :
    opcodeMap.Pairwise fun a b => a.bits &&& b.mask ≠ b.bits &&& a.mask := by
  decide

/-- Settles O4: the rows differ pairwise on their common mask, and the decoder is the map. -/
theorem decodingFollowsTheOpcodeMap : Obligations.DecodingFollowsTheOpcodeMap := by
  refine ⟨rfl, opcodeMap_pairwise_bits_ne.imp OpcodeRow.disjoint_of_bits_ne,
    fun row hrow w hm => decode_eq_ok_iff.2 ⟨row, hrow, hm, rfl⟩, fun w hw => ?_⟩
  cases h : decode w with
  | error e => exact ⟨e, rfl⟩
  | ok i => exact absurd h (forall_decode_ne_ok_iff.2 hw i)

end Sys2Proof

/-! # Proofs of the statements about flow (spec/40_flow.md)

Each instruction of families 0, 1, 2 and B answers a state written with the named setters, so its frame is put together
from one frame lemma per setter. A call followed by a return is the rule of the call followed by that of the return. -/

namespace Sys2Proof

open Machine

/-! ## Encodings and faults, for any instruction -/

/-- A row of the opcode map is an encoding (R80). -/
theorem encodes_of_mem_opcodeMap {row : OpcodeRow} (h : row ∈ opcodeMap) : Encodes row.mask row.bits row.read :=
  fun _ hm => decode_eq_ok_iff.2 ⟨row, h, hm, rfl⟩

/-- A meaning that answers with a raised fault writes the record of R203 and nothing else (R204). -/
theorem faultsWith_of_exec_eq {i : Instr} {s : State} {c : FaultCause} {n : Nat}
    (h : exec i s = .next (s.raise c n)) : FaultsWith i s c n :=
  ⟨_, h, rfl, s.raise_unchanged c n⟩

/-! ## Frames of the setters -/

theorem UnchangedExcept.trans {P Q : Part → Prop} {s t u : State} (hst : UnchangedExcept P s t)
    (htu : UnchangedExcept Q t u) : UnchangedExcept (fun p => Q p ∨ P p) s u :=
  fun p hp => Part.same_trans (hst p (hp ∘ .inr)) (htu p (hp ∘ .inl))

theorem Machine.State.setPc_unchanged (s : State) (a : Addr) : UnchangedExcept (fun p => p = .pc) s (s.setPc a) := by
  intro p hp
  cases p <;> simp_all [Part.same]

theorem Machine.State.setStack_unchanged (s : State) (stack : Vector Addr Config.stackDepth)
    (sp : Fin (Config.stackDepth + 1)) : UnchangedExcept (fun p => p = .stack) s (s.setStack stack sp) := by
  intro p hp
  cases p <;> simp_all [Part.same]

theorem Machine.State.setFb_unchanged (s : State) (fb : FrameBuffer) :
    UnchangedExcept (fun p => ∃ r c, p = .pixel r c) s (s.setFb fb) := by
  intro p hp
  cases p <;> simp_all [Part.same]

/-! ## Clear (R100) and the two jumps (R102, R104) -/

/-- Settles O31: every pixel of the cleared display is 0, and only the display and `pc` are written. -/
theorem clsClearsTheDisplay : Obligations.ClsClearsTheDisplay := by
  refine ⟨encodes_of_mem_opcodeMap (row := ⟨0xF0FF, 0x00E0, fun _ => .cls⟩) (by simp [opcodeMap]), fun s => ?_⟩
  exact ⟨_, rfl, pixel_clearedDisplay, rfl, (s.setFb_unchanged _).trans (State.setPc_unchanged _ _)⟩

/-- Settles O33: `pc` is the zero-extended immediate. -/
theorem jpReplacesPc : Obligations.JpReplacesPc := by
  refine ⟨encodes_of_mem_opcodeMap (row := ⟨0xF000, 0x1000, fun w => .jp (Field.nnn w)⟩) (by simp [opcodeMap]),
    fun nnn s => ?_⟩
  exact ⟨_, rfl, toNat_zext16 nnn, s.setPc_unchanged _⟩

/-- Settles O35: `pc` is the sum, reduced only by its own 16 bits. -/
theorem jpV0AddsRegisterZero : Obligations.JpV0AddsRegisterZero := by
  refine ⟨encodes_of_mem_opcodeMap (row := ⟨0xF000, 0xB000, fun w => .jpV0 (Field.nnn w)⟩) (by simp [opcodeMap]),
    fun nnn s => ?_⟩
  exact ⟨_, rfl, BitVec.toNat_ofNat _ _, s.setPc_unchanged _⟩

/-! ## Return (R101) -/

/-- The newest entry is entry k, and it is no longer valid afterwards. -/
theorem exec_ret_of_sp_eq_succ {s : State} {k : Fin Config.stackDepth} (h : s.sp.val = k.val + 1) :
    exec .ret s = .next ((s.setStack s.stack k.castSucc).setPc (s.stack[k.val] + 2)) := by
  obtain ⟨hempty, -⟩ | ⟨j, sp, hj, hsp, hpop⟩ := s.pop?_cases
  · omega
  · obtain rfl : j = k := Fin.ext (by omega)
    obtain rfl : sp = j.castSucc := Fin.ext hsp
    simp only [exec, execRet, hpop]
    rfl

theorem exec_ret_of_empty {s : State} (h : s.sp.val = 0) : exec .ret s = .next (s.raise .stackUnderflow 0) := by
  obtain ⟨-, hpop⟩ | ⟨k, -, hk, -, -⟩ := s.pop?_cases
  · simp only [exec, execRet, hpop]
  · omega

/-- Settles O32, by the two cases of a pop. -/
theorem retPopsAndAddsTwo : Obligations.RetPopsAndAddsTwo := by
  refine ⟨encodes_of_mem_opcodeMap (row := ⟨0xF0FF, 0x00EE, fun _ => .ret⟩) (by simp [opcodeMap]),
    fun s => ⟨fun k hk => ?_, fun hempty => faultsWith_of_exec_eq (exec_ret_of_empty hempty)⟩⟩
  exact ⟨_, exec_ret_of_sp_eq_succ hk, rfl, rfl, fun _ _ => rfl,
    (s.setStack_unchanged _ _).trans (State.setPc_unchanged _ _)⟩

/-! ## Call (R103) -/

/-- The call's own address becomes the newest entry. -/
theorem exec_call_of_room (nnn : BitVec 12) {s : State} (h : s.sp.val < Config.stackDepth) :
    exec (.call nnn) s =
      .next ((s.setStack (s.stack.set s.sp.val s.pc) (Fin.succ ⟨s.sp.val, h⟩)).setPc (zext16 nnn)) := by
  simp only [exec, execCall, State.push?, dif_pos h]

theorem exec_call_of_full (nnn : BitVec 12) {s : State} (h : s.sp.val = Config.stackDepth) :
    exec (.call nnn) s = .next (s.raise .stackOverflow s.sp.val) := by
  obtain ⟨-, hpush⟩ | ⟨hroom, -⟩ := s.push?_cases s.pc
  · simp only [exec, execCall, hpush]
  · omega

/-- Settles O34, by the two cases of a push. -/
theorem callPushesItsOwnAddress : Obligations.CallPushesItsOwnAddress := by
  refine ⟨encodes_of_mem_opcodeMap (row := ⟨0xF000, 0x2000, fun w => .call (Field.nnn w)⟩) (by simp [opcodeMap]),
    fun nnn s => ⟨fun k hk => ?_, fun hfull => faultsWith_of_exec_eq (exec_call_of_full nnn hfull)⟩⟩
  have hroom : s.sp.val < Config.stackDepth := hk ▸ k.isLt
  obtain rfl : k = ⟨s.sp.val, hroom⟩ := Fin.ext hk.symm
  exact ⟨_, exec_call_of_room nnn hroom, Vector.getElem_set_self _, rfl, toNat_zext16 nnn,
    fun j hj => Vector.getElem_set_ne hroom j.isLt hj.ne', (s.setStack_unchanged _ _).trans (State.setPc_unchanged _ _)⟩

/-! ## A call and its return -/

/-- Settles O27: the return takes the entry that the call pushed, so `SP` and the entries below it are those of before
the call (O34, O32). -/
theorem aReturnResumesAfterItsCall : Obligations.AReturnResumesAfterItsCall := by
  intro s nnn hroom
  obtain ⟨t, hcall, hpushed, htsp, -, htbelow, htframe⟩ :=
    (callPushesItsOwnAddress.2 nnn s).1 ⟨s.sp.val, hroom⟩ rfl
  obtain ⟨u, hret, hupc, husp, hubelow, huframe⟩ := (retPopsAndAddsTwo.2 t).1 ⟨s.sp.val, hroom⟩ htsp
  refine ⟨t, u, hcall, hret, hupc.trans (congrArg (· + 2) hpushed), fun p hp => ?_⟩
  by_cases hstack : p = .stack
  · subst hstack
    exact ⟨Fin.ext husp, fun j hj => (hubelow j hj).trans (htbelow j hj)⟩
  · exact htframe.trans huframe p (by tauto)

end Sys2Proof

/-! # Proofs of the statements about the skips (spec/41_skip.md)

The four skips differ only in the comparison they make: each answers `s.skipIf c` for a Boolean `c`. What such an answer
does to `pc` and to every other part is said once, for any instruction and any condition that `c` decides. -/

namespace Sys2Proof

open Machine

/-! ## A skip on any condition -/

theorem Machine.State.skipIf_unchanged (s : State) (c : Bool) : UnchangedExcept (fun p => p = .pc) s (s.skipIf c) :=
  s.setPc_unchanged _

/-- Where a skip goes, in terms of the proposition its Boolean decides (R16). -/
theorem Machine.State.skipIf_pc_of_iff (s : State) {c : Bool} {P : Prop} [Decidable P] (hc : c = true ↔ P) :
    (s.skipIf c).pc = s.pc + (if P then 4 else 2) := by
  by_cases hP : P
  · simp [hc.2 hP, hP]
  · have hfalse : c = false := Bool.eq_false_iff.2 (mt hc.1 hP)
    simp [hfalse, hP]

/-- An instruction that answers a skip on `c` advances `pc` by 4 when the condition holds, by 2 when it does not, and
changes nothing else. -/
theorem skips_of_exec_eq {i : Instr} {s : State} {c : Bool} {P : Prop} [Decidable P]
    (h : exec i s = .next (s.skipIf c)) (hc : c = true ↔ P) :
    ∃ t, exec i s = .next t ∧ t.pc = s.pc + (if P then 4 else 2) ∧ UnchangedExcept (fun p => p = .pc) s t :=
  ⟨_, h, s.skipIf_pc_of_iff hc, s.skipIf_unchanged c⟩

/-! ## The comparisons with an immediate (R110, R111) and of two registers (R112, R113) -/

/-- Settles O36: the two words are rows of the opcode map, and the two meanings are skips on `==` and on `!=`. -/
theorem theTwoImmediateSkips : Obligations.TheTwoImmediateSkips := by
  refine ⟨encodes_of_mem_opcodeMap (row := ⟨0xF000, 0x3000, fun w => .seVxKk (Field.x w) (Field.kk w)⟩)
      (by simp [opcodeMap]),
    encodes_of_mem_opcodeMap (row := ⟨0xF000, 0x4000, fun w => .sneVxKk (Field.x w) (Field.kk w)⟩)
      (by simp [opcodeMap]), fun x kk s => ⟨?_, ?_⟩⟩
  · exact skips_of_exec_eq (c := s.reg x == kk) rfl beq_iff_eq
  · exact skips_of_exec_eq (c := s.reg x != kk) rfl bne_iff_ne

/-- Settles O37: as for an immediate, with the second register in its place; the map's rows leave the low nibble free. -/
theorem theTwoRegisterSkips : Obligations.TheTwoRegisterSkips := by
  refine ⟨encodes_of_mem_opcodeMap (row := ⟨0xF000, 0x5000, fun w => .seVxVy (Field.x w) (Field.y w)⟩)
      (by simp [opcodeMap]),
    encodes_of_mem_opcodeMap (row := ⟨0xF000, 0x9000, fun w => .sneVxVy (Field.x w) (Field.y w)⟩)
      (by simp [opcodeMap]), fun x y s => ⟨?_, ?_⟩⟩
  · exact skips_of_exec_eq (c := s.reg x == s.reg y) rfl beq_iff_eq
  · exact skips_of_exec_eq (c := s.reg x != s.reg y) rfl bne_iff_ne

end Sys2Proof

/-! # Proofs of the statements about the immediate loads (spec/42_load_imm.md)

Each instruction of families 6, 7, A and C writes one register or `I`, then advances `pc`; `RND` first takes a byte from
its port. So each frame is put together from one frame lemma per operation, as for the flow instructions. -/

namespace Sys2Proof

open Machine

/-! ## Frames of the register writes and of a draw -/

theorem Machine.State.setReg_unchanged (s : State) (r : RegIdx) (v : Byte) :
    UnchangedExcept (fun p => p = .reg r) s (s.setReg r v) := by
  intro p hp
  cases p with
  | reg q => exact s.reg_setReg_ne v fun hq => hp (congrArg Part.reg hq)
  | _ => simp [Part.same]

theorem Machine.State.setI_unchanged (s : State) (a : Addr) : UnchangedExcept (fun p => p = .index) s (s.setI a) := by
  intro p hp
  cases p <;> simp_all [Part.same]

theorem Machine.State.advance_unchanged (s : State) (n : Nat) : UnchangedExcept (fun p => p = .pc) s (s.advance n) :=
  s.setPc_unchanged _

/-- A draw of `rand_in` changes nothing but its port (R124). -/
theorem Machine.State.drawRand_unchanged (s : State) : UnchangedExcept (fun p => p.ofRand) s s.drawRand.2 := by
  intro p hp
  rw [s.drawRand_frame]
  cases p <;> simp_all [Part.same, Part.ofRand]

/-! ## The loads (R120, R122) -/

/-- Settles O38: the byte is written to `x[X]`, then `pc` advances. -/
theorem ldVxKkLoadsTheImmediate : Obligations.LdVxKkLoadsTheImmediate := by
  refine ⟨encodes_of_mem_opcodeMap (row := ⟨0xF000, 0x6000, fun w => .ldVxKk (Field.x w) (Field.kk w)⟩)
    (by simp [opcodeMap]), fun x kk s => ?_⟩
  exact ⟨_, rfl, s.reg_setReg_self x kk, rfl, (s.setReg_unchanged x kk).trans (State.advance_unchanged _ 2)⟩

/-- Settles O40: `I` becomes the zero-extended immediate, then `pc` advances. -/
theorem ldILoadsTheAddress : Obligations.LdILoadsTheAddress := by
  refine ⟨encodes_of_mem_opcodeMap (row := ⟨0xF000, 0xA000, fun w => .ldINnn (Field.nnn w)⟩) (by simp [opcodeMap]),
    fun nnn s => ?_⟩
  exact ⟨_, rfl, toNat_zext16 nnn, rfl, (s.setI_unchanged _).trans (State.advance_unchanged _ 2)⟩

/-! ## The immediate add (R121) -/

/-- The sum wraps at the byte's 8 bits. -/
theorem toNat_addResult (a b : Byte) : (addResult a b).toNat = (a.toNat + b.toNat) % 256 :=
  BitVec.toNat_ofNat _ _

/-- Settles O39: only `x[X]` is written, with the wrapped sum; register 15 has no other part in it. -/
theorem addVxKkWrapsWithoutAFlag : Obligations.AddVxKkWrapsWithoutAFlag := by
  refine ⟨encodes_of_mem_opcodeMap (row := ⟨0xF000, 0x7000, fun w => .addVxKk (Field.x w) (Field.kk w)⟩)
    (by simp [opcodeMap]), fun x kk s => ?_⟩
  have hreg : ((s.setReg x (addResult (s.reg x) kk)).reg x).toNat = ((s.reg x).toNat + kk.toNat) % 256 := by
    rw [State.reg_setReg_self, toNat_addResult]
  exact ⟨_, rfl, hreg, rfl, (s.setReg_unchanged x _).trans (State.advance_unchanged _ 2)⟩

/-! ## The random byte (R123, R124) -/

/-- Settles O41: the byte is the one that the draw delivers, and the draw touches only its port. -/
theorem rndMasksOneFreshByte : Obligations.RndMasksOneFreshByte := by
  refine ⟨encodes_of_mem_opcodeMap (row := ⟨0xF000, 0xC000, fun w => .rndVxKk (Field.x w) (Field.kk w)⟩)
    (by simp [opcodeMap]), fun x kk s => ?_⟩
  have hpc : ((s.drawRand.2.setReg x (kk &&& s.drawRand.1)).advance 2).pc = s.pc + 2 :=
    congrArg (· + 2) s.drawRand_pc
  exact ⟨s.drawRand.1, _, rfl, s.drawRand_delivers, State.reg_setReg_self _ x _, hpc,
    (s.drawRand_unchanged.trans (State.setReg_unchanged _ x _)).trans (State.advance_unchanged _ 2)⟩

end Sys2Proof

/-! # Proofs of the statements about the register-to-register operations (spec/43_alu.md)

All of family 8 stands in the frame of R130: an operation without a flag writes `x[X]`, one with a flag writes `x[X]`
and then `x[15]`. What each of the two shapes answers is said once, for any operation and any flag; what is left to an
instruction is the meaning of its own result and flag. -/

namespace Sys2Proof

open Machine

/-! ## The two shapes of R130 -/

/-- Without a flag, only `x[X]` and `pc` are written. -/
theorem Machine.aluPlain_spec (op : Byte → Byte → Byte) (x y : RegIdx) (s : State) :
    ∃ t, aluPlain op x y s = .next t ∧ t.reg x = op (s.reg x) (s.reg y) ∧ t.pc = s.pc + 2 ∧
      UnchangedExcept (fun p => p = .pc ∨ p = .reg x) s t :=
  ⟨_, rfl, s.reg_setReg_self x _, rfl, (s.setReg_unchanged x _).trans (State.advance_unchanged _ 2)⟩

/-- With a flag, the flag is written last: it is what register 15 holds, and the result stays in any other `x[X]`. -/
theorem Machine.aluFlag_spec (op : Byte → Byte → Byte) (flag : Byte → Byte → Bool) (x y : RegIdx) (s : State) :
    ∃ t, aluFlag op flag x y s = .next t ∧ (x ≠ 15 → t.reg x = op (s.reg x) (s.reg y)) ∧
      t.reg 15 = Byte.ofFlag (flag (s.reg x) (s.reg y)) ∧ t.pc = s.pc + 2 ∧
      UnchangedExcept (fun p => p = .pc ∨ p = .reg x ∨ p = .reg 15) s t := by
  have hframe := ((s.setReg_unchanged x (op (s.reg x) (s.reg y))).trans
    (State.setReg_unchanged _ 15 (Byte.ofFlag (flag (s.reg x) (s.reg y))))).trans (State.advance_unchanged _ 2)
  refine ⟨_, rfl, fun hx => ?_, State.reg_setReg_self _ 15 _, rfl, fun p hp => hframe p (by tauto)⟩
  exact (State.reg_setReg_ne _ _ hx).trans (s.reg_setReg_self x _)

/-- A shift of `x[X]` is an operation with a flag that ignores its second operand (R137, R139). -/
theorem Machine.aluShift_X_eq_aluFlag (op : Byte → Byte) (flag : Byte → Bool) (x y : RegIdx) (s : State) :
    aluShift .X op flag x y s = aluFlag (fun a _ => op a) (fun a _ => flag a) x y s := rfl

/-! ## The results and the flags -/

/-- The difference wraps at the byte's 8 bits (R136, R138). -/
theorem toNat_subResult (a b : Byte) : ((subResult a b).toNat : Int) = (a.toNat - b.toNat : Int) % 256 := by
  have hnat : (subResult a b).toNat = (a.toNat + 256 - b.toNat) % 256 := BitVec.toNat_ofNat _ _
  have hb : b.toNat < 256 := b.isLt
  omega

theorem shrResult_eq_ushiftRight (a : Byte) : shrResult a = a >>> 1 := by
  have hlt : a.toNat / 2 < 256 := by have := a.isLt; omega
  refine BitVec.eq_of_toNat_eq ?_
  calc (shrResult a).toNat = a.toNat / 2 % 256 := BitVec.toNat_ofNat _ _
    _ = a.toNat / 2 := Nat.mod_eq_of_lt hlt
    _ = (a >>> 1).toNat := by rw [BitVec.toNat_ushiftRight, Nat.shiftRight_one]

theorem shlResult_eq_shiftLeft (a : Byte) : shlResult a = a <<< 1 := by
  refine BitVec.eq_of_toNat_eq ?_
  calc (shlResult a).toNat = a.toNat * 2 % 256 := BitVec.toNat_ofNat _ _
    _ = (a <<< 1).toNat := by rw [BitVec.toNat_shiftLeft, Nat.shiftLeft_eq, Nat.pow_one]

theorem Byte.ofFlag_decide (P : Prop) [Decidable P] : Byte.ofFlag (decide P) = if P then 1 else 0 := by
  simp [Byte.ofFlag]

theorem ofFlag_addCarry (a b : Byte) :
    Byte.ofFlag (addCarry a b) = if 255 < a.toNat + b.toNat then 1 else 0 := Byte.ofFlag_decide _

/-- The sense of the flag is the borrow itself (the spec's decision D9). -/
theorem ofFlag_subFlag (a b : Byte) :
    Byte.ofFlag (subFlag Params.subFlagSense a b) = if a.toNat < b.toNat then 1 else 0 := Byte.ofFlag_decide _

/-! ## The instructions -/

/-- `encodes_of_mem_opcodeMap` with the row written out, so that it is found from the statement. -/
theorem encodes_of_mk_mem_opcodeMap {mask bits : Word} {read : Word → Instr} (h : ⟨mask, bits, read⟩ ∈ opcodeMap) :
    Encodes mask bits read :=
  encodes_of_mem_opcodeMap h

/-- Settles O42: each of the four is the plain shape with its own operation. -/
theorem theFourPlainAluOperations : Obligations.TheFourPlainAluOperations := by
  refine ⟨encodes_of_mk_mem_opcodeMap (by simp [opcodeMap]), encodes_of_mk_mem_opcodeMap (by simp [opcodeMap]),
    encodes_of_mk_mem_opcodeMap (by simp [opcodeMap]), encodes_of_mk_mem_opcodeMap (by simp [opcodeMap]),
    fun x y s => ⟨?_, ?_, ?_, ?_⟩⟩
  · exact aluPlain_spec (fun _ b => b) x y s
  · exact aluPlain_spec (fun a b => a ||| b) x y s
  · exact aluPlain_spec (fun a b => a &&& b) x y s
  · exact aluPlain_spec (fun a b => a ^^^ b) x y s

/-- Settles O43: the flagged shape with the wrapped sum and the carry. -/
theorem addVxVySetsTheCarry : Obligations.AddVxVySetsTheCarry := by
  refine ⟨encodes_of_mk_mem_opcodeMap (by simp [opcodeMap]), fun x y s => ?_⟩
  obtain ⟨t, hexec, hres, hflag, hpc, hframe⟩ := aluFlag_spec addResult addCarry x y s
  exact ⟨t, hexec, fun hx => by rw [hres hx, toNat_addResult], hflag.trans (ofFlag_addCarry _ _), hpc, hframe⟩

/-- Settles O44: the flagged shape with the wrapped difference and the borrow, the operands exchanged for `SUBN`. -/
theorem theTwoSubtractionsSetTheBorrow : Obligations.TheTwoSubtractionsSetTheBorrow := by
  refine ⟨encodes_of_mk_mem_opcodeMap (by simp [opcodeMap]), encodes_of_mk_mem_opcodeMap (by simp [opcodeMap]),
    fun x y s => ⟨?_, ?_⟩⟩
  · obtain ⟨t, hexec, hres, hflag, hpc, hframe⟩ := aluFlag_spec subResult (subFlag Params.subFlagSense) x y s
    exact ⟨t, hexec, fun hx => by rw [hres hx, toNat_subResult], hflag.trans (ofFlag_subFlag _ _), hpc, hframe⟩
  · obtain ⟨t, hexec, hres, hflag, hpc, hframe⟩ :=
      aluFlag_spec (fun a b => subResult b a) (fun a b => subFlag Params.subFlagSense b a) x y s
    exact ⟨t, hexec, fun hx => by rw [hres hx, toNat_subResult], hflag.trans (ofFlag_subFlag _ _), hpc, hframe⟩

/-- Settles O45: the source of a shift is `x[X]`, so both are the flagged shape, and the flag is the bit shifted out. -/
theorem theTwoShiftsKeepTheBitShiftedOut : Obligations.TheTwoShiftsKeepTheBitShiftedOut := by
  refine ⟨encodes_of_mk_mem_opcodeMap (by simp [opcodeMap]), encodes_of_mk_mem_opcodeMap (by simp [opcodeMap]),
    fun x y s => ⟨?_, ?_⟩⟩
  · obtain ⟨t, hexec, hres, hflag, hpc, hframe⟩ := aluFlag_spec (fun a _ => shrResult a) (fun a _ => shrFlag a) x y s
    exact ⟨t, (aluShift_X_eq_aluFlag _ _ x y s).trans hexec,
      fun hx => (hres hx).trans (shrResult_eq_ushiftRight _), hflag, hpc, hframe⟩
  · obtain ⟨t, hexec, hres, hflag, hpc, hframe⟩ := aluFlag_spec (fun a _ => shlResult a) (fun a _ => shlFlag a) x y s
    exact ⟨t, (aluShift_X_eq_aluFlag _ _ x y s).trans hexec,
      fun hx => (hres hx).trans (shlResult_eq_shiftLeft _), hflag, hpc, hframe⟩

end Sys2Proof

/-! # Proofs of the statements about the display (spec/44_draw.md)

What `DRW` answers is read off the raster's own law, `draw_spec`, once. The second of two draws is the same rule applied
to the state after the first, in which the sprite and its place are still the same. -/

namespace Sys2Proof

open Machine

/-! ## The point query (R156) -/

/-- Settles O60: inside the display the query's check passes, outside it does not. -/
theorem aPointQueryReadsOnePixel : Obligations.APointQueryReadsOnePixel := by
  intro s
  refine ⟨fun r c => ?_, fun row col houtside => ?_⟩
  · exact dif_pos ⟨r.isLt, c.isLt⟩
  · exact dif_neg (by omega)

/-! ## One draw (R150, R151, R155) -/

theorem exec_drw_of_fits {x y : RegIdx} {n : Fin 16} {s : State}
    (h : n.val = 0 ∨ s.I.toNat + n.val ≤ Params.memSize) {out : Raster}
    (hout : draw s.fb (s.reg y).toNat (s.reg x).toNat (s.mem.readBytes s.I.toNat n.val) = out) :
    exec (.drw x y n) s = .next (((s.setFb out.1).setReg 15 (Byte.ofFlag out.2)).advance 2) := by
  obtain ⟨-, hbytes⟩ | ⟨hn, hlarge, -⟩ := s.bytesAtI?_cases n.val
  · simp only [exec, execDrw, hbytes, hout]
  · omega

theorem exec_drw_of_outside {x y : RegIdx} {n : Fin 16} {s : State} (hn : n.val ≠ 0)
    (h : Params.memSize < s.I.toNat + n.val) : exec (.drw x y n) s = .next (s.raise .mem s.I.toNat) := by
  obtain ⟨hfits, -⟩ | ⟨-, -, hbytes⟩ := s.bytesAtI?_cases n.val
  · omega
  · simp only [exec, execDrw, hbytes]

/-- A pixel has gone from 1 to 0 exactly when it was 1 and has changed. -/
theorem pixel_cleared_iff {a b : FrameBuffer} {r : Fin 32} {c : Fin 64} :
    (pixel a r c = true ∧ pixel b r c = false) ↔ (pixel a r c = true ∧ pixel b r c ≠ pixel a r c) :=
  and_congr_right fun hset => by rw [hset, Bool.eq_false_iff]

/-- Settles O46: the raster's law gives the toggled pixels, and its hit is that a toggled pixel was set. -/
theorem drwTogglesExactlyTheSpritePixels : Obligations.DrwTogglesExactlyTheSpritePixels := by
  refine ⟨encodes_of_mk_mem_opcodeMap (by simp [opcodeMap]), fun x y n s => ⟨fun hfits => ?_, fun hn hlarge => ?_⟩⟩
  · generalize hout : draw s.fb (s.reg y).toNat (s.reg x).toNat (s.mem.readBytes s.I.toNat n.val) = out
    obtain ⟨htoggled, hhit⟩ := draw_spec s (s.reg y).toNat (s.reg x).toNat n.val (by omega)
    rw [hout] at htoggled hhit
    have hcleared : out.2 = true ↔ ∃ r c, pixel s.fb r c = true ∧ pixel out.1 r c = false := by
      simp only [hhit, pixel_cleared_iff, htoggled]
    have hflag : (((s.setFb out.1).setReg 15 (Byte.ofFlag out.2)).advance 2).reg 15 = Byte.ofFlag out.2 :=
      State.reg_setReg_self _ 15 _
    have hframe := ((s.setFb_unchanged out.1).trans (State.setReg_unchanged _ 15 (Byte.ofFlag out.2))).trans
      (State.advance_unchanged _ 2)
    refine ⟨_, exec_drw_of_fits hfits hout, htoggled, fun hsome => ?_, fun hnone => ?_, rfl, hframe⟩
    · rw [hflag, hcleared.2 hsome]
      rfl
    · have hno : out.2 = false := Bool.eq_false_iff.2 fun hyes =>
        let ⟨r, c, hrc⟩ := hcleared.1 hyes
        hnone r c hrc
      rw [hflag, hno]
      rfl
  · exact faultsWith_of_exec_eq (exec_drw_of_outside hn hlarge)

/-! ## Two draws at one place (R155) -/

/-- Where a sprite has its bits depends on memory and `I` alone. -/
theorem spriteSets_iff_of_same {s t : State} (hI : Part.index.same s t) (hmem : ∀ a, (Part.memByte a).same s t)
    (row col n : Nat) (r : Fin 32) (c : Fin 64) : SpriteSets t row col n r c ↔ SpriteSets s row col n r c := by
  simp only [Part.same] at hI hmem
  simp only [SpriteSets, hI, hmem]

/-- A bit that changes twice or not at all is back at its old value. -/
theorem bool_eq_of_ne_iff_ne {a b d : Bool} (h : d ≠ b ↔ b ≠ a) : d = a := by
  cases a <;> cases b <;> simpa using h

/-- Settles O28, from O46 twice: the second draw toggles the pixels that the first one did, so each is back, and where
the first draw set them all, the second clears them all. -/
theorem drawingTwiceRestoresTheFrame : Obligations.DrawingTwiceRestoresTheFrame := by
  intro s x y n hx hy hfits
  obtain ⟨t, hdraw₁, htoggled₁, -, hmiss₁, -, hframe₁⟩ := (drwTogglesExactlyTheSpritePixels.2 x y n s).1 hfits
  have hI : t.I = s.I := hframe₁ .index (by simp)
  have hregx : t.reg x = s.reg x := hframe₁ (.reg x) (by simpa using hx)
  have hregy : t.reg y = s.reg y := hframe₁ (.reg y) (by simpa using hy)
  obtain ⟨u, hdraw₂, htoggled₂, hhit₂, hmiss₂, -, -⟩ :=
    (drwTogglesExactlyTheSpritePixels.2 x y n t).1 (by rwa [hI])
  simp only [hregx, hregy, spriteSets_iff_of_same hI fun a => hframe₁ (.memByte a) (by simp)] at htoggled₂
  have hback : ∀ r c, pixel u.fb r c = pixel s.fb r c := fun r c =>
    bool_eq_of_ne_iff_ne ((htoggled₂ r c).trans (htoggled₁ r c).symm)
  refine ⟨t, u, hdraw₁, hdraw₂, frameBuffer_ext hback, fun hblank => ⟨hmiss₁ ?_, ?_, fun hempty => hmiss₂ ?_⟩⟩
  · rintro r c ⟨hset, hclear⟩
    have hsprite := (htoggled₁ r c).1 (pixel_cleared_iff.1 ⟨hset, hclear⟩).2
    simp [hblank r c hsprite] at hset
  · rintro ⟨r, c, hsprite⟩
    have hwas : pixel s.fb r c = false := hblank r c hsprite
    have hset : pixel t.fb r c = true := by simpa [hwas] using (htoggled₁ r c).2 hsprite
    exact hhit₂ ⟨r, c, hset, (hback r c).trans hwas⟩
  · rintro r c ⟨hset, hclear⟩
    exact hempty r c ((htoggled₂ r c).1 (pixel_cleared_iff.1 ⟨hset, hclear⟩).2)

end Sys2Proof

/-! # Proofs of the statements about the key pad (spec/45_key.md)

All three instructions sample and then write only parts that no sample writes: `pc`, and for the wait also `x[X]`. That
such a state still shows the sample is said once. What is left is the check of the number and the end of the wait. -/

namespace Sys2Proof

open Machine

/-! ## After a sample (R225) -/

/-- The delivery of a value is seen on the port alone. -/
theorem KeyDelivered.of_same {v : KeySample} {s t u : State} (h : KeyDelivered v s t)
    (hsame : ∀ p, Part.ofSample p → p.same t u) : KeyDelivered v s u := by
  have hport : u.keyIn = t.keyIn := hsame .keyPort trivial
  have hdraws : u.draws = t.draws := hsame .draws trivial
  simpa only [KeyDelivered, hport, hdraws] using h

/-- The effect of a sample is seen on the key flags, the latch and `EXIT` alone. -/
theorem SampleApplied.of_same {v : KeySample} {s t u : State} (h : SampleApplied v s t)
    (hsame : ∀ p, Part.ofSample p → p.same t u) : SampleApplied v s u := by
  have hkeys : ∀ k, u.key k = t.key k := fun k => hsame (.key k) trivial
  have hlast : u.lastKey = t.lastKey := hsame .lastKey trivial
  have hexit : u.exit = t.exit := hsame .exit trivial
  cases v <;> simpa only [SampleApplied, hkeys, hlast, hexit] using h

/-- A state that differs from the sampled one only in parts that no sample writes still shows the sample. -/
theorem Machine.State.sample_then {s t : State} {named : Part → Prop} (h : UnchangedExcept named s.sample.2 t)
    (hnamed : ∀ p, named p → ¬ p.ofSample) :
    KeyDelivered s.sample.1 s t ∧ SampleApplied s.sample.1 s t ∧
      UnchangedExcept (fun p => named p ∨ p.ofSample) s t := by
  have hsame : ∀ p, Part.ofSample p → p.same s.sample.2 t := fun p hp => h p fun hn => hnamed p hn hp
  exact ⟨s.sample_delivers.of_same hsame, s.sample_applies.of_same hsame, s.sample_unchanged.trans h⟩

/-- A value that waits on the port is the one delivered. -/
theorem KeyDelivered.of_keyIn_eq_cons {v w : KeySample} {rest : List KeySample} {s t : State}
    (h : KeyDelivered v s t) (hs : s.keyIn = w :: rest) : v = w ∧ t.keyIn = rest := by
  obtain ⟨rest', hcons, ht, -⟩ | ⟨hnil, -⟩ := h
  · obtain ⟨rfl, rfl⟩ := List.cons.inj (hs.symm.trans hcons)
    exact ⟨rfl, ht⟩
  · rw [hs] at hnil
    cases hnil

/-! ## The key skips (R160, R161) -/

/-- A key number within the pad: the sample comes first, and the skip goes by the flag after it. -/
theorem Machine.skipOnKey_of_key (wanted : Bool) {x : RegIdx} {s : State} {k : KeyIdx}
    (hk : (s.reg x).toNat = k.val) :
    ∃ v t, skipOnKey wanted x s = .next t ∧ KeyDelivered v s t ∧ SampleApplied v s t ∧
      t.pc = s.pc + (if t.key k = wanted then 4 else 2) ∧ UnchangedExcept (fun p => p = .pc ∨ p.ofSample) s t := by
  obtain ⟨j, hj, hidx⟩ | ⟨hlarge, -⟩ := keyIndex?_cases (s.reg x)
  · obtain rfl : j = k := Fin.ext (hj.symm.trans hk)
    have hexec : skipOnKey wanted x s = .next (s.sample.2.skipIf (s.sample.2.key j == wanted)) := by
      simp only [skipOnKey, hidx]
    obtain ⟨hdel, happ, hframe⟩ := s.sample_then (s.sample.2.skipIf_unchanged (s.sample.2.key j == wanted))
      (by rintro _ rfl; exact id)
    have hpc := s.sample.2.skipIf_pc_of_iff (beq_iff_eq (a := s.sample.2.key j) (b := wanted))
    rw [State.sample_pc] at hpc
    exact ⟨_, _, hexec, hdel, happ, hpc, hframe⟩
  · omega

/-- A number above 15 faults before any sample (the spec's decision D26). -/
theorem Machine.skipOnKey_of_large (wanted : Bool) {x : RegIdx} {s : State} (h : 15 < (s.reg x).toNat) :
    skipOnKey wanted x s = .next (s.raise .key (s.reg x).toNat) := by
  obtain ⟨k, hk, -⟩ | ⟨-, hidx⟩ := keyIndex?_cases (s.reg x)
  · omega
  · simp only [skipOnKey, hidx]

/-- Settles O47: both are `skipOnKey`, which wants the flag set in `SKP` and clear in `SKNP`. -/
theorem theTwoKeySkipsSampleFirst : Obligations.TheTwoKeySkipsSampleFirst := by
  refine ⟨encodes_of_mk_mem_opcodeMap (by simp [opcodeMap]), encodes_of_mk_mem_opcodeMap (by simp [opcodeMap]),
    fun x s => ⟨fun k hk => ⟨?_, ?_⟩, fun hlarge => ⟨?_, ?_⟩⟩⟩
  · exact skipOnKey_of_key true hk
  · exact skipOnKey_of_key false hk
  · exact faultsWith_of_exec_eq (skipOnKey_of_large true hlarge)
  · exact faultsWith_of_exec_eq (skipOnKey_of_large false hlarge)

/-! ## The key wait (R162) -/

theorem Machine.endKeyWait_of_not_key {x : RegIdx} {v : KeySample} {s : State} (h : ∀ k, v ≠ .key k) :
    endKeyWait x v s = s := by
  cases v with
  | key k => exact absurd rfl (h k)
  | none => rfl
  | exit => rfl

theorem Part.same_refl (p : Part) (s : State) : p.same s s := by
  cases p <;> simp [Part.same]

theorem Machine.endKeyWait_unchanged (x : RegIdx) (v : KeySample) (s : State) :
    UnchangedExcept (fun p => p = .pc ∨ p = .reg x) s (endKeyWait x v s) := by
  cases v with
  | key k => exact (s.setReg_unchanged x (keyByte k)).trans (State.advance_unchanged _ 2)
  | none => exact fun p _ => p.same_refl s
  | exit => exact fun p _ => p.same_refl s

/-- One attempt: one sample, and its value decides whether the wait ends. -/
theorem exec_ldVxK_spec (x : RegIdx) (s : State) :
    ∃ v t, exec (.ldVxK x) s = .next t ∧ KeyDelivered v s t ∧ SampleApplied v s t ∧
      (∀ k, v = .key k → (t.reg x).toNat = k.val ∧ t.pc = s.pc + 2) ∧
      ((∀ k, v ≠ .key k) → t.reg x = s.reg x ∧ t.pc = s.pc) ∧
      UnchangedExcept (fun p => p = .pc ∨ p = .reg x ∨ p.ofSample) s t := by
  obtain ⟨hdel, happ, hframe⟩ := s.sample_then (endKeyWait_unchanged x s.sample.1 s.sample.2)
    (by rintro _ (rfl | rfl) <;> exact id)
  refine ⟨_, _, rfl, hdel, happ, fun k hkey => ?_, fun hno => ?_, fun p hp => hframe p (by tauto)⟩
  · rw [hkey]
    refine ⟨?_, congrArg (· + 2) s.sample_pc⟩
    exact (congrArg BitVec.toNat (s.sample.2.reg_setReg_self x (keyByte k))).trans (toNat_keyByte k)
  · rw [endKeyWait_of_not_key hno]
    exact ⟨s.sample_unchanged (.reg x) id, s.sample_pc⟩

/-- Settles O48: the general clause is the rule of one attempt; where a key waits on the port, it is the value of that
attempt. -/
theorem ldVxKWaitsForAKey : Obligations.LdVxKWaitsForAKey := by
  refine ⟨encodes_of_mk_mem_opcodeMap (by simp [opcodeMap]), fun x s => ⟨fun k rest hport => ?_, exec_ldVxK_spec x s⟩⟩
  obtain ⟨v, t, hexec, hdel, happ, hends, -, hframe⟩ := exec_ldVxK_spec x s
  obtain ⟨rfl, hrest⟩ := hdel.of_keyIn_eq_cons hport
  obtain ⟨hreg, hpc⟩ := hends k rfl
  exact ⟨t, hexec, hreg, hpc, hrest, happ, hframe⟩

end Sys2Proof

/-! # Proofs of the statements about family F (spec/46_f_misc.md)

Each of the eight instructions answers a state written with the named setters, so its frame is put together from one
frame lemma per setter, as in the families before. The three that use memory have one rule where their bytes fit and one
where they do not. A dump followed by a load is the rule of the dump followed by that of the load. -/

namespace Sys2Proof

open Machine

/-! ## Frames of the timer setters and of the block writes -/

theorem Machine.State.setDt_unchanged (s : State) (v : Byte) : UnchangedExcept (fun p => p = .dt) s (s.setDt v) := by
  intro p hp
  cases p <;> simp_all [Part.same]

theorem Machine.State.setSt_unchanged (s : State) (v : Byte) : UnchangedExcept (fun p => p = .st) s (s.setSt v) := by
  intro p hp
  cases p <;> simp_all [Part.same]

/-- Bytes written at `a`, `a + 1`, ... change no byte outside their block (R48). -/
theorem Machine.State.setMem_writeBytes_unchanged (s : State) (a : Nat) (vs : List Byte) :
    UnchangedExcept (fun p => ∃ b, p = .memByte b ∧ a ≤ b ∧ b < a + vs.length) s
      (s.setMem (s.mem.writeBytes a vs)) := by
  intro p hp
  cases p with
  | memByte b =>
    have hout : ¬ (a ≤ b ∧ b < a + vs.length) := fun hb => hp ⟨b, rfl, hb⟩
    exact Memory.read_writeBytes_outside _ _ _ _ (by omega)
  | _ => simp [Part.same]

/-- A list of bytes loaded from register 0 up changes no register at or above its length (R177). -/
theorem Machine.State.setFirstRegs_unchanged (s : State) (vs : List Byte) :
    UnchangedExcept (fun p => ∃ r : RegIdx, p = .reg r ∧ r.val < vs.length) s (s.setFirstRegs vs) := by
  intro p hp
  cases p with
  | reg r => exact (s.reg_setFirstRegs vs r).trans (dif_neg fun hr => hp ⟨r, rfl, hr⟩)
  | _ => simp [Part.same]

theorem UnchangedExcept.mono {P Q : Part → Prop} {s t : State} (h : UnchangedExcept P s t)
    (hPQ : ∀ p, P p → Q p) : UnchangedExcept Q s t :=
  fun p hp => h p (mt (hPQ p) hp)

/-! ## The timers (R170 to R172) -/

/-- Settles O49: each of the two writes its destination, then advances `pc`. -/
theorem theTwoDelayTransfers : Obligations.TheTwoDelayTransfers := by
  refine ⟨encodes_of_mk_mem_opcodeMap (by simp [opcodeMap]), encodes_of_mk_mem_opcodeMap (by simp [opcodeMap]),
    fun x s => ⟨?_, ?_⟩⟩
  · exact ⟨_, rfl, s.reg_setReg_self x s.dt, rfl, (s.setReg_unchanged x s.dt).trans (State.advance_unchanged _ 2)⟩
  · exact ⟨_, rfl, rfl, rfl, (s.setDt_unchanged (s.reg x)).trans (State.advance_unchanged _ 2)⟩

/-- Settles O50: `ST` is written, and `tone_out` is by definition whether `ST` is not 0. -/
theorem ldStVxSetsTheSoundCounter : Obligations.LdStVxSetsTheSoundCounter := by
  refine ⟨encodes_of_mk_mem_opcodeMap (by simp [opcodeMap]), fun x s => ?_⟩
  exact ⟨_, rfl, rfl, decide_eq_true_iff, rfl, (s.setSt_unchanged (s.reg x)).trans (State.advance_unchanged _ 2)⟩

/-! ## The index register (R173, R174) -/

/-- `ADD I, Vx` never faults, since `I_OVERFLOW` is `wrap` (the spec's decision D17). -/
theorem exec_addIVx (x : RegIdx) (s : State) :
    exec (.addIVx x) s = .next ((s.setI (BitVec.ofNat 16 (s.I.toNat + (s.reg x).toNat))).advance 2) := by
  simp only [exec, execAddIVx, indexAdd_params]

/-- Settles O51: `I` is the sum reduced to 16 bits, and no register is written. -/
theorem addIVxWrapsWithoutAFlag : Obligations.AddIVxWrapsWithoutAFlag := by
  refine ⟨encodes_of_mk_mem_opcodeMap (by simp [opcodeMap]), fun x s => ?_⟩
  exact ⟨_, exec_addIVx x s, BitVec.toNat_ofNat _ _, rfl, (s.setI_unchanged _).trans (State.advance_unchanged _ 2)⟩

/-- Settles O52: five times a byte is less than 65536, so nothing is lost. -/
theorem ldFVxPointsAtTheGlyph : Obligations.LdFVxPointsAtTheGlyph := by
  refine ⟨encodes_of_mk_mem_opcodeMap (by simp [opcodeMap]), fun x s => ?_⟩
  have hI : (BitVec.ofNat 16 ((s.reg x).toNat * 5)).toNat = (s.reg x).toNat * 5 :=
    (BitVec.toNat_ofNat _ _).trans (Nat.mod_eq_of_lt (by omega))
  exact ⟨_, rfl, hI, rfl, (s.setI_unchanged _).trans (State.advance_unchanged _ 2)⟩

/-! ## The decimal digits (R175) -/

theorem exec_ldBVx_of_fits {s : State} {x : RegIdx} (h : s.I.toNat + 3 ≤ Params.memSize) :
    exec (.ldBVx x) s =
      .next ((s.setMem (s.mem.writeBytes s.I.toNat (decimalDigits (s.reg x)))).advance 2) := by
  obtain ⟨-, hst⟩ | ⟨hout, -⟩ := s.storeAtI?_cases (decimalDigits (s.reg x))
  · simp only [exec, execLdBVx, hst]
  · rw [length_decimalDigits] at hout
    omega

theorem exec_ldBVx_of_outside {s : State} {x : RegIdx} (h : Params.memSize < s.I.toNat + 3) :
    exec (.ldBVx x) s = .next (s.raise .mem s.I.toNat) := by
  obtain ⟨hfits, -⟩ | ⟨-, hst⟩ := s.storeAtI?_cases (decimalDigits (s.reg x))
  · rw [length_decimalDigits] at hfits
    omega
  · simp only [exec, execLdBVx, hst]

/-- Each of the three digits fits a byte. -/
theorem map_toNat_decimalDigits (v : Byte) :
    (decimalDigits v).map BitVec.toNat = [v.toNat / 100, v.toNat / 10 % 10, v.toNat % 10] := by
  have hundreds : v.toNat / 100 < 256 := by omega
  have tens : v.toNat / 10 % 10 < 256 := by omega
  have ones : v.toNat % 10 < 256 := by omega
  simp [decimalDigits, Nat.mod_eq_of_lt hundreds, Nat.mod_eq_of_lt tens, Nat.mod_eq_of_lt ones]

/-- After a store of the digits, the byte at `I + k` is digit k, hundreds first. -/
theorem toNat_read_writeBytes_decimalDigits (m : Memory) (a : Nat) (v : Byte) {k : Nat} (h : k < 3) :
    ((m.writeBytes a (decimalDigits v)).read (a + k)).toNat =
      [v.toNat / 100, v.toNat / 10 % 10, v.toNat % 10][k] := by
  rw [Memory.read_writeBytes_inside _ _ _ _ h]
  exact (List.getElem_map BitVec.toNat).symm.trans (List.getElem_of_eq (map_toNat_decimalDigits v) h)

/-- Settles O53, by whether the three bytes lie in memory. -/
theorem ldBVxStoresTheDecimalDigits : Obligations.LdBVxStoresTheDecimalDigits := by
  refine ⟨encodes_of_mk_mem_opcodeMap (by simp [opcodeMap]), fun x s => ⟨fun hfits => ?_, fun hlarge => ?_⟩⟩
  · have hdigit := fun k => toNat_read_writeBytes_decimalDigits s.mem s.I.toNat (s.reg x) (k := k)
    exact ⟨_, exec_ldBVx_of_fits hfits, hdigit 0 (by decide), hdigit 1 (by decide), hdigit 2 (by decide), rfl,
      (s.setMem_writeBytes_unchanged _ (decimalDigits (s.reg x))).trans (State.advance_unchanged _ 2)⟩
  · exact faultsWith_of_exec_eq (exec_ldBVx_of_outside hlarge)

/-! ## The dump of registers 0 to X (R176) -/

theorem exec_ldMemVx_of_outside {s : State} {x : RegIdx} (h : Params.memSize < s.I.toNat + x.val + 1) :
    exec (.ldMemVx x) s = .next (s.raise .mem s.I.toNat) := by
  obtain ⟨hfits, -⟩ | ⟨-, hst⟩ := s.storeAtI?_cases (s.firstRegs (x.val + 1))
  · rw [s.length_firstRegs _ (by omega)] at hfits
    omega
  · simp only [exec, execLdMemVx, hst]

/-- The block of a dump is the X + 1 bytes at `I`. -/
theorem Machine.State.dump_unchanged (s : State) (x : RegIdx) :
    UnchangedExcept (fun p => ∃ a, p = .memByte a ∧ s.I.toNat ≤ a ∧ a ≤ s.I.toNat + x.val) s
      (s.setMem (s.mem.writeBytes s.I.toNat (s.firstRegs (x.val + 1)))) := by
  refine (s.setMem_writeBytes_unchanged _ _).mono ?_
  rintro _ ⟨a, rfl, hlow, hhigh⟩
  rw [s.length_firstRegs _ (by omega)] at hhigh
  exact ⟨a, rfl, hlow, by omega⟩

/-- Settles O54, by whether the block lies in memory. -/
theorem ldMemVxDumpsRegistersZeroToX : Obligations.LdMemVxDumpsRegistersZeroToX := by
  refine ⟨encodes_of_mk_mem_opcodeMap (by simp [opcodeMap]), fun x s => ⟨fun hfits => ?_, fun hlarge => ?_⟩⟩
  · exact ⟨_, exec_ldMemVx_of_fits hfits, fun r hr => read_writeBytes_firstRegs s hr, BitVec.toNat_ofNat _ _, rfl,
      ((s.dump_unchanged x).trans (State.setI_unchanged _ _)).trans (State.advance_unchanged _ 2)⟩
  · exact faultsWith_of_exec_eq (exec_ldMemVx_of_outside hlarge)

/-! ## The load of registers 0 to X (R177) -/

/-- A block load that fits: the bytes at `I` into the registers, then `I` 8 higher and the default +2 (R177). -/
theorem exec_ldVxMem_of_fits {s : State} {x : RegIdx} (h : s.I.toNat + x.val + 1 ≤ Params.memSize) :
    exec (.ldVxMem x) s = .next (((s.setFirstRegs (s.mem.readBytes s.I.toNat (x.val + 1))).setI
      (BitVec.ofNat 16 (s.I.toNat + blockAdvance))).advance 2) := by
  obtain ⟨-, hbytes⟩ | ⟨-, hlarge, -⟩ := s.bytesAtI?_cases (x.val + 1)
  · simp only [exec, execLdVxMem, hbytes, indexAdd_params]
  · omega

theorem exec_ldVxMem_of_outside {s : State} {x : RegIdx} (h : Params.memSize < s.I.toNat + x.val + 1) :
    exec (.ldVxMem x) s = .next (s.raise .mem s.I.toNat) := by
  obtain ⟨hfits, -⟩ | ⟨-, -, hbytes⟩ := s.bytesAtI?_cases (x.val + 1)
  · omega
  · simp only [exec, execLdVxMem, hbytes]

/-- After a block load register r, up to X, holds the byte at `a + r`. -/
theorem reg_setFirstRegs_readBytes (s : State) (a : Nat) {r x : RegIdx} (h : r ≤ x) :
    (s.setFirstRegs (s.mem.readBytes a (x.val + 1))).reg r = s.mem.read (a + r.val) := by
  have hlen : r.val < (s.mem.readBytes a (x.val + 1)).length := by
    rw [Memory.length_readBytes]
    exact Nat.lt_succ_of_le h
  rw [State.reg_setFirstRegs, dif_pos hlen, Memory.getElem_readBytes]

/-- The registers of a load are those from 0 to X. -/
theorem Machine.State.load_unchanged (s : State) (a : Nat) (x : RegIdx) :
    UnchangedExcept (fun p => ∃ r : RegIdx, p = .reg r ∧ r ≤ x) s
      (s.setFirstRegs (s.mem.readBytes a (x.val + 1))) := by
  refine (s.setFirstRegs_unchanged _).mono ?_
  rintro _ ⟨r, rfl, hr⟩
  rw [Memory.length_readBytes] at hr
  exact ⟨r, rfl, Nat.le_of_lt_succ hr⟩

/-- Settles O55, by whether the block lies in memory. -/
theorem ldVxMemLoadsRegistersZeroToX : Obligations.LdVxMemLoadsRegistersZeroToX := by
  refine ⟨encodes_of_mk_mem_opcodeMap (by simp [opcodeMap]), fun x s => ⟨fun hfits => ?_, fun hlarge => ?_⟩⟩
  · exact ⟨_, exec_ldVxMem_of_fits hfits, fun r hr => reg_setFirstRegs_readBytes s _ hr, BitVec.toNat_ofNat _ _, rfl,
      ((s.load_unchanged _ x).trans (State.setI_unchanged _ _)).trans (State.advance_unchanged _ 2)⟩
  · exact faultsWith_of_exec_eq (exec_ldVxMem_of_outside hlarge)

/-! ## A dump and the load after it -/

/-- Settles O29: the dump puts register r at `I + r` and the load takes it from there, up to X; above X the load keeps
the register (O54, O55). -/
theorem aLoadRestoresDumpedRegisters : Obligations.ALoadRestoresDumpedRegisters := by
  intro s x changed hfits
  obtain ⟨t, hdump, hmem, htI, -, -⟩ := (ldMemVxDumpsRegistersZeroToX.2 x s).1 hfits
  obtain ⟨v, hload, hreg, hvI, -, hframe⟩ :=
    (ldVxMemLoadsRegistersZeroToX.2 x { t with x := changed, I := s.I }).1 hfits
  refine ⟨t, v, hdump, BitVec.eq_of_toNat_eq htI, hload, BitVec.eq_of_toNat_eq hvI, fun r => ?_⟩
  split
  case isTrue hr => exact (hreg r hr).trans (hmem r hr)
  case isFalse hr => exact hframe (.reg r) (by simpa using hr)

end Sys2Proof

/-! # Proofs of the statements about steps, faults and agents (spec/60_exceptions.md)

A step is a turn taken and then the step of one agent; the laws of Laws/Step.lean say what that can be. The invariant is
kept agent by agent: a fault and each write of the other agents keep it as a whole, an instruction field by field. -/

namespace Sys2Proof

open Machine

/-! ## Stops, and the step of each agent (R206, R210, R247) -/

/-- Settles O9: a step looks at `FAULT` and then at `EXIT` before the schedule. -/
theorem anEndedMachineTakesNoStep : Obligations.AnEndedMachineTakesNoStep := by
  refine fun s => ⟨fun r hfault => ?_, fun ⟨hexit, hfault⟩ => ?_⟩
  · simp only [step, oneStep, hfault]
  · simp only [step, oneStep, hfault, hexit, if_true]

theorem step_of_turn {s : State} {a : Agent} (hlive : Live s) (hturn : s.turn = a) :
    step s = agentStep a s.popTurn := by
  rw [step_of_live hlive, hturn]

/-- Around `exec` a step only takes the CPU's turn. -/
theorem step_of_aboutToExecute {s : State} {i : Instr} (h : AboutToExecute s i) : step s = exec i s.popTurn := by
  obtain ⟨hlive, hturn, w, hfetch, hdecode⟩ := h
  rw [step_of_turn hlive hturn]
  simp only [agentStep, cpuStep, State.popTurn_fetch, hfetch, hdecode]

/-- Settles O6: the word that the fetch reads is the one that the statement writes out. -/
theorem aStepRunsTheDecodedInstruction : Obligations.AStepRunsTheDecodedInstruction := by
  intro s i hlive hturn hfits hdecode
  have habout : AboutToExecute s i := ⟨hlive, hturn, _, fetch?_of_fits rfl hfits, hdecode⟩
  exact ⟨step_of_aboutToExecute habout, s.popTurn_turnTaken, s.popTurn_unchanged⟩

theorem cpuStep_of_illegalWord {s : State} {w : Word} (hfetch : s.fetch? = some w)
    (hill : WellFormed.illegalWord w = true) : cpuStep s = .next (s.raise .illegal w.toNat) := by
  cases hdecode : decode w with
  | ok i => exact absurd hdecode ((exactlyTheIllegalWordsDoNotDecode w).1 hill i)
  | error e => simp only [cpuStep, hfetch, hdecode]

/-- Settles O8: the fetch answers the word, and the fault is raised with it. -/
theorem anIllegalWordFaults : Obligations.AnIllegalWordFaults := by
  intro s w hlive hturn hfits hw hill
  have hfetch : s.popTurn.fetch? = some w := hw ▸ fetch?_of_fits rfl hfits
  refine ⟨s.popTurn.raise .illegal w.toNat, ?_, ?_, turnTaken_of_same rfl rfl, popTurn_raise_unchanged _ _ _⟩
  · rw [step_of_turn hlive hturn]
    exact cpuStep_of_illegalWord hfetch hill
  · simp only [State.raise_fault, State.faultRecord, hfetch, FaultCause.cls, State.popTurn_pc]

/-- Settles O11: two counters are written after the turn is taken, each with its decayed value. -/
theorem aTimerTickDecaysBothCounters : Obligations.ATimerTickDecaysBothCounters := by
  intro s hlive hturn
  refine ⟨_, step_of_turn hlive hturn, toNat_decay _, toNat_decay _, turnTaken_of_same rfl rfl, fun p hp => ?_⟩
  exact (s.popTurn_unchanged.trans (State.setDt_unchanged _ _)).trans (State.setSt_unchanged _ _) p (by tauto)

/-- A sample takes no turn. -/
theorem Machine.State.sample_turn (s : State) : s.sample.2.schedule = s.schedule ∧ s.sample.2.turns = s.turns :=
  ⟨s.sample_unchanged .schedule id, s.sample_unchanged .turns id⟩

/-- The effect of a sample does not depend on the turn. -/
theorem SampleApplied.of_popTurn {v : KeySample} {s t : State} (h : SampleApplied v s.popTurn t) :
    SampleApplied v s t := by
  cases v <;> exact h

/-- Settles O12: the sample of Laws/Ports.lean, taken after the turn. -/
theorem aSamplerStepAppliesOneSample : Obligations.ASamplerStepAppliesOneSample := by
  intro s hlive hturn
  obtain ⟨hschedule, hturns⟩ := s.popTurn.sample_turn
  exact ⟨_, _, step_of_turn hlive hturn, s.popTurn.sample_delivers, s.popTurn.sample_applies.of_popTurn,
    turnTaken_of_same hschedule hturns, s.popTurn_unchanged.trans s.popTurn.sample_unchanged⟩

theorem Machine.State.setFrameOut_unchanged (s : State) (f : Snapshot) :
    UnchangedExcept (fun p => p = .frameOut) s (s.setFrameOut f) := by
  intro p hp
  cases p <;> simp_all [Part.same]

/-- Settles O13: the snapshot is taken of the state itself, since a turn changes neither display nor keys. -/
theorem aRefreshPresentsOneSnapshot : Obligations.ARefreshPresentsOneSnapshot := fun s hlive hturn =>
  ⟨_, step_of_turn hlive hturn, rfl, turnTaken_of_same rfl rfl,
    s.popTurn_unchanged.trans (State.setFrameOut_unchanged _ _)⟩

/-! ## A placed word (R44, R247; log 12) -/

theorem decode_of_decodeTableWord {w : Nat} {i : Instr} (h : decodeTableWord 16 w = some i) :
    decode (BitVec.ofNat 16 (w % 2 ^ 16)) = .ok i := by
  unfold decodeTableWord at h
  generalize BitVec.ofNat 16 (w % 2 ^ 16) = v at h
  cases hdecode : decode v <;> simp_all [decodeBytes, wordOfBytes_bytes, Except.map]

theorem Machine.State.inRange_readyToFetch_pc (s : State) : inRange s.readyToFetch.pc.toNat 2 = true := by
  by_cases h : inRange s.pc.toNat 2 = true
  · simp [State.readyToFetch, h]
  · simp only [State.readyToFetch, h]
    rfl

/-- The placed word is what the fetch reads back (R42, R43). -/
theorem Machine.State.fetch?_placeWord (s : State) (w : Word) : (s.placeWord w).fetch? = some w := by
  have hpc : (s.placeWord w).pc = s.readyToFetch.pc := rfl
  rw [State.fetch?, hpc, if_pos s.inRange_readyToFetch_pc]
  exact congrArg some (Memory.read16_write16 _ _ _)

/-- Settles O59: the state with the word placed is about to execute it. -/
theorem aPlacedWordIsRunNext : Obligations.APlacedWordIsRunNext := fun s _ _ h =>
  step_of_aboutToExecute
    ⟨⟨rfl, rfl⟩, s.turn_placeWord _, _, s.fetch?_placeWord _, decode_of_decodeTableWord h⟩

/-! ## The turn of a step, and the orders of agents (R240) -/

/-- Whoever steps, the turn is taken and nothing else is done to the schedule. -/
theorem step_takes_turn {s t : State} (h : step s = .next t) :
    t.schedule = s.popTurn.schedule ∧ t.turns = s.popTurn.turns := by
  obtain ⟨-, ⟨-, ⟨c, n, rfl⟩ | ⟨i, -, -, hframe⟩⟩ | ⟨-, rfl⟩ | ⟨-, rfl⟩ | ⟨-, rfl⟩⟩ := step_cases h
  · exact ⟨rfl, rfl⟩
  · exact ⟨hframe .schedule id, hframe .turns id⟩
  · exact ⟨rfl, rfl⟩
  · exact s.popTurn.sample_turn
  · exact ⟨rfl, rfl⟩

/-- The agents of a list, put into the schedule, take the steps of a run until it ends. -/
theorem run_of_schedule (agents : List Agent) {s : State} (hs : s.schedule = agents) :
    ∃ taken t, taken <+: agents ∧ Run (fun _ => True) s taken t ∧ (taken = agents ∨ ¬ Live t) := by
  induction agents generalizing s with
  | nil => exact ⟨[], s, List.prefix_rfl, .nil s, .inl rfl⟩
  | cons a rest ih =>
    by_cases hlive : Live s
    · obtain ⟨u, hstep⟩ := step_next_of_live hlive
      have hrest : u.schedule = rest := (step_takes_turn hstep).1.trans (congrArg List.tail hs)
      obtain ⟨taken, t, hprefix, hrun, hend⟩ := ih hrest
      refine ⟨a :: taken, t, List.cons_prefix_cons.2 ⟨rfl, hprefix⟩, ?_, hend.imp_left (congrArg (a :: ·))⟩
      rw [← State.turn_of_cons hs]
      exact .cons trivial hstep hrun
    · exact ⟨[], s, List.nil_prefix, .nil s, .inr hlive⟩

/-- Settles O10: every agent's step answers in a live machine, so an order of agents is used up turn by turn. -/
theorem anyAgentMayStepExactlyWhenLive : Obligations.AnyAgentMayStepExactlyWhenLive :=
  ⟨fun _ => ⟨fun ⟨_, hstep⟩ => live_of_step hstep, step_next_of_live⟩, fun _ agents => run_of_schedule agents rfl,
    fun _ => State.turn_of_nil⟩

/-! ## A step that raises a fault (R203, R204) -/

/-- A live machine comes to a fault only by raising it in the CPU's turn. -/
theorem step_eq_raise_of_fault {s t : State} (h : step s = .next t) (hfault : t.fault ≠ none) :
    ∃ c n, t = s.popTurn.raise c n := by
  obtain ⟨⟨hs, -⟩, ⟨-, hraise | ⟨i, -, -, hframe⟩⟩ | ⟨-, rfl⟩ | ⟨-, rfl⟩ | ⟨-, rfl⟩⟩ := step_cases h
  · exact hraise
  · exact absurd ((hframe .fault id).trans hs) hfault
  · exact absurd hs hfault
  · exact absurd ((s.popTurn.sample_unchanged .fault id).trans hs) hfault
  · exact absurd hs hfault

/-- Settles O14: the record of a raised fault is made from the state before, and only the turn changes beside it. -/
theorem aFaultingStepChangesNothingElse : Obligations.AFaultingStepChangesNothingElse := by
  intro s t r hstep hfault
  obtain ⟨c, n, rfl⟩ := step_eq_raise_of_fault hstep (by simp [hfault])
  cases hfault
  exact ⟨rfl, rfl, rfl, turnTaken_of_same rfl rfl, popTurn_raise_unchanged s c n⟩

/-! ## The invariant of a live machine, and of a fault raised in one (R203, R210) -/

/-- Where no fault is recorded, the two clauses about the ends of a run say nothing. -/
theorem Inv.of_fault_none {s : State} (hfault : s.fault = none) (hmem : s.mem.wf = true) (hkeys : KeysFollowLatch s)
    (hstack : StackHoldsCallAddresses s) : Inv s where
  mem := hmem
  keys := hkeys
  stack := hstack
  record := by simp [FaultRecordIsPrecise, hfault]
  oneEnd := by simp [hfault]

/-- A fault raised in a live machine is recorded precisely and is the one end of the run. -/
theorem Inv.raise {s : State} (h : Inv s) (hexit : s.exit = false) (c : FaultCause) (n : Nat) : Inv (s.raise c n) where
  mem := h.mem
  keys := h.keys
  stack := h.stack
  record := by simp [FaultRecordIsPrecise, State.faultRecord]
  oneEnd := by simp [hexit]

/-! ## The keys and the latch (R227) -/

/-- After a sample exactly the latched key is pressed (R225, R227). -/
theorem keysFollowLatch_of_sampleApplied {v : KeySample} {s t : State} (h : SampleApplied v s t)
    (hs : KeysFollowLatch s) : KeysFollowLatch t := by
  intro k
  cases v <;> obtain ⟨-, hlast, hkeys⟩ := h <;> rw [hkeys, hlast, hs]
  case none => simp
  case key n => grind

theorem Machine.State.sample_keysFollowLatch {s : State} (h : KeysFollowLatch s) : KeysFollowLatch s.sample.2 :=
  keysFollowLatch_of_sampleApplied s.sample_applies h

/-- A key skip raises a fault or samples and skips, whatever it wants (R160, R161). -/
theorem Machine.skipOnKey_cases {wanted : Bool} {x : RegIdx} {s t : State} (h : skipOnKey wanted x s = .next t) :
    (∃ n, t = s.raise .key n) ∨ ∃ cond, t = s.sample.2.skipIf cond := by
  unfold skipOnKey at h
  split at h <;> cases h
  · exact .inl ⟨_, rfl⟩
  · exact .inr ⟨_, rfl⟩

theorem Machine.skipOnKey_keysFollowLatch {wanted : Bool} {x : RegIdx} {s t : State}
    (h : skipOnKey wanted x s = .next t) (hs : KeysFollowLatch s) : KeysFollowLatch t := by
  obtain ⟨n, rfl⟩ | ⟨cond, rfl⟩ := skipOnKey_cases h
  · exact hs
  · exact State.sample_keysFollowLatch hs

/-- The three instructions that sample keep R227 as a sample does; the others change neither keys nor latch. -/
theorem exec_keysFollowLatch {i : Instr} {s t : State} (h : exec i s = .next t) (hs : KeysFollowLatch s) :
    KeysFollowLatch t := by
  obtain ⟨c, n, rfl⟩ | hframe := exec_cases h
  · exact hs
  by_cases hsamples : ∃ x, i = .skp x ∨ i = .sknp x ∨ i = .ldVxK x
  · obtain ⟨x, rfl | rfl | rfl⟩ := hsamples
    · exact skipOnKey_keysFollowLatch h hs
    · exact skipOnKey_keysFollowLatch h hs
    · obtain ⟨v, u, hu, -, happ, -⟩ := exec_ldVxK_spec x s
      cases h.symm.trans hu
      exact keysFollowLatch_of_sampleApplied happ hs
  · have hinput : ∀ p, Part.ofInput p → p.same s t := fun p hp => hframe p (hsamples ∘ (mayTouch_input_iff hp).1)
    intro k
    have hkey : t.key k = s.key k := hinput (.key k) trivial
    have hlast : t.lastKey = s.lastKey := hinput .lastKey trivial
    rw [hkey, hlast, hs]

/-! ## The call stack (R18) -/

/-- A stack of which no entry is new keeps R18. -/
theorem stackHoldsCallAddresses_of_le {s t : State} (hs : StackHoldsCallAddresses s) (hsp : t.sp.val ≤ s.sp.val)
    (hentries : ∀ k : Fin Config.stackDepth, k.val < t.sp.val → t.stack[k.val] = s.stack[k.val]) :
    StackHoldsCallAddresses t := by
  intro k hk
  rw [hentries k hk]
  exact hs k (by omega)

theorem push?_stackHoldsCallAddresses {s t : State} {a : Addr} (h : s.push? a = some t)
    (ha : a.toNat + 2 ≤ Params.memSize) (hs : StackHoldsCallAddresses s) : StackHoldsCallAddresses t := by
  obtain ⟨-, hpush⟩ | ⟨hroom, u, hpush, -, hsp, htop, hbelow⟩ := s.push?_cases a <;> cases h.symm.trans hpush
  intro k hk
  obtain hlt | heq := Nat.lt_succ_iff_lt_or_eq.1 (hsp ▸ hk)
  · rw [hbelow k hlt]
    exact hs k hlt
  · obtain rfl : k = ⟨s.sp.val, hroom⟩ := Fin.ext heq
    rw [htop]
    exact ha

/-- `CALL` pushes the address of its own word; `RET` only takes an entry away. -/
theorem exec_stackHoldsCallAddresses {i : Instr} {s t : State} (h : exec i s = .next t)
    (hpc : s.pc.toNat + 2 ≤ Params.memSize) (hs : StackHoldsCallAddresses s) : StackHoldsCallAddresses t := by
  obtain ⟨c, n, rfl⟩ | hframe := exec_cases h
  · exact hs
  by_cases hstack : (∃ nnn, i = .call nnn) ∨ i = .ret
  · obtain ⟨nnn, rfl⟩ | rfl := hstack
    · simp only [exec, execCall] at h
      split at h <;> cases h
      · exact hs
      · rename_i u hpush
        exact push?_stackHoldsCallAddresses (t := u) hpush hpc hs
    · simp only [exec, execRet] at h
      obtain ⟨-, hpop⟩ | ⟨k, sp, hk, hsp, hpop⟩ := s.pop?_cases <;> rw [hpop] at h <;> cases h
      · exact hs
      · exact stackHoldsCallAddresses_of_le hs (show sp.val ≤ s.sp.val by omega) fun _ _ => rfl
  · obtain ⟨hsp, hentries⟩ := hframe .stack (hstack ∘ mayTouch_stack_iff.1)
    exact stackHoldsCallAddresses_of_le hs (by rw [hsp]) fun k hk => hentries k (hsp ▸ hk)

/-! ## The canonical form of memory (log 14) -/

theorem Machine.State.sample_mem (s : State) : s.sample.2.mem = s.mem := by
  obtain ⟨keys, last, ex, h⟩ := s.sample_frame
  rw [h]

theorem Machine.State.drawRand_mem (s : State) : s.drawRand.2.mem = s.mem := by
  rw [s.drawRand_frame, State.setRandIn_mem]

theorem Machine.skipOnKey_mem {wanted : Bool} {x : RegIdx} {s t : State} (h : skipOnKey wanted x s = .next t) :
    t.mem = s.mem := by
  obtain ⟨n, rfl⟩ | ⟨cond, rfl⟩ := skipOnKey_cases h
  · rfl
  · exact s.sample_mem

theorem Machine.endKeyWait_mem (x : RegIdx) (v : KeySample) (s : State) : (endKeyWait x v s).mem = s.mem := by
  cases v <;> rfl

/-- As data, memory is what it was or has had a block written at `I` that lies below `MEM_SIZE`. -/
theorem exec_mem_cases {i : Instr} {s t : State} (h : exec i s = .next t) :
    t.mem = s.mem ∨
      ∃ vs : List Byte, s.I.toNat + vs.length ≤ Params.memSize ∧ t.mem = s.mem.writeBytes s.I.toNat vs := by
  cases i
  case ldBVx x =>
    obtain ⟨hfits, hst⟩ | ⟨-, hst⟩ := s.storeAtI?_cases (decimalDigits (s.reg x)) <;>
      simp only [exec, execLdBVx, hst] at h <;> cases h
    · exact .inr ⟨_, hfits, rfl⟩
    · exact .inl rfl
  case ldMemVx x =>
    obtain ⟨hfits, hst⟩ | ⟨-, hst⟩ := s.storeAtI?_cases (s.firstRegs (x.val + 1)) <;>
      simp only [exec, execLdMemVx, hst, indexAdd_params] at h <;> cases h
    · exact .inr ⟨_, hfits, rfl⟩
    · exact .inl rfl
  all_goals left
  case ret =>
    obtain ⟨-, hpop⟩ | ⟨k, sp, -, -, hpop⟩ := s.pop?_cases <;> simp only [exec, execRet, hpop] at h <;> cases h <;> rfl
  case call nnn =>
    obtain ⟨-, hpush⟩ | ⟨-, u, hpush, hu, -⟩ := s.push?_cases s.pc <;>
      simp only [exec, execCall, hpush] at h <;> cases h
    · rfl
    · exact (congrArg State.mem hu).trans (s.setStack_mem _ _)
  case drw x y n => simp only [exec, execDrw] at h; split at h <;> cases h <;> rfl
  case skp x => exact skipOnKey_mem h
  case sknp x => exact skipOnKey_mem h
  case ldVxK x => cases h; exact (endKeyWait_mem _ _ _).trans s.sample_mem
  case rndVxKk x kk => cases h; exact s.drawRand_mem
  case addIVx x => cases (exec_addIVx x s).symm.trans h; rfl
  case ldVxMem x =>
    simp only [exec, execLdVxMem, indexAdd_params] at h
    split at h <;> cases h <;> rfl
  all_goals cases h; rfl

theorem exec_mem_wf {i : Instr} {s t : State} (h : exec i s = .next t) (hs : s.mem.wf = true) : t.mem.wf = true := by
  obtain hmem | ⟨vs, hfits, hmem⟩ := exec_mem_cases h <;> rw [hmem]
  · exact hs
  · exact Memory.wf_writeBytes hs vs hfits

/-! ## The invariant, agent by agent -/

theorem Inv.popTurn {s : State} (h : Inv s) : Inv s.popTurn :=
  ⟨h.mem, h.keys, h.stack, h.record, h.oneEnd⟩

/-- An instruction that was fetched from memory keeps the invariant of a live machine. -/
theorem Inv.exec {i : Instr} {s t : State} (h : Inv s) (hlive : Live s) (hpc : s.pc.toNat + 2 ≤ Params.memSize)
    (hexec : exec i s = .next t) : Inv t := by
  obtain ⟨c, n, rfl⟩ | hframe := exec_cases hexec
  · exact h.raise hlive.2 c n
  · exact .of_fault_none ((hframe .fault id).trans hlive.1) (exec_mem_wf hexec h.mem)
      (exec_keysFollowLatch hexec h.keys) (exec_stackHoldsCallAddresses hexec hpc h.stack)

/-- A sample writes none of memory, the stack and `FAULT`. -/
theorem Inv.sample {s : State} (h : Inv s) (hlive : Live s) : Inv s.sample.2 := by
  obtain ⟨hsp, hentries⟩ := s.sample_unchanged .stack id
  exact .of_fault_none ((s.sample_unchanged .fault id).trans hlive.1) (s.sample_mem ▸ h.mem)
    (State.sample_keysFollowLatch h.keys)
    (stackHoldsCallAddresses_of_le h.stack hsp.le fun k hk => hentries k (hsp ▸ hk))

theorem pc_fits_of_aboutToExecute {s : State} {i : Instr} (h : AboutToExecute s i) :
    s.pc.toNat + 2 ≤ Params.memSize := by
  obtain ⟨-, -, w, hfetch, -⟩ := h
  obtain ⟨hfits, -⟩ | ⟨-, hnone⟩ := s.fetch?_cases
  · exact hfits
  · cases hnone.symm.trans hfetch

/-- Settles O16: taking the turn keeps the invariant, and so does the step of each agent. The timer and the refresh
write nothing of which the invariant speaks. -/
theorem everyStepKeepsTheInvariant : Obligations.EveryStepKeepsTheInvariant := by
  intro s t hinv hstep
  obtain ⟨hlive, ⟨-, ⟨c, n, rfl⟩ | ⟨i, hi, hexec, -⟩⟩ | ⟨-, rfl⟩ | ⟨-, rfl⟩ | ⟨-, rfl⟩⟩ := step_cases hstep
  · exact hinv.popTurn.raise hlive.2 c n
  · exact hinv.popTurn.exec hlive (pc_fits_of_aboutToExecute (s := s) hi) hexec
  · exact ⟨hinv.mem, hinv.keys, hinv.stack, hinv.record, hinv.oneEnd⟩
  · exact hinv.popTurn.sample hlive
  · exact ⟨hinv.mem, hinv.keys, hinv.stack, hinv.record, hinv.oneEnd⟩

end Sys2Proof

/-! # Proofs of the statements about the load, the counters and the source's words (spec/70_reset_and_hazards.md)

The two counters obey one law, which is proved once over `Counter` and then read for `DT` and for `ST`. What the load has
put at 0x200 stays there, under `pc`, until the `CPU` takes a turn. -/

namespace Sys2Proof

open Machine

/-! ## The two counters (R19, R221, R271) -/

/-- The delay counter `DT` and the sound counter `ST` (R19). -/
inductive Counter where
  | delay
  | sound

/-- The part of the state that a counter is. -/
def Counter.part : Counter → Part
  | .delay => .dt
  | .sound => .st

def Counter.value : Counter → State → Byte
  | .delay, s => s.dt
  | .sound, s => s.st

/-- The instruction that loads a counter from register x (R171, R172). -/
def Counter.load : Counter → RegIdx → Instr
  | .delay, x => .ldDtVx x
  | .sound, x => .ldStVx x

theorem Counter.value_of_same {c : Counter} {s t : State} (h : c.part.same s t) : c.value t = c.value s := by
  cases c <;> exact h

theorem Counter.mayTouch_part_iff {c : Counter} {i : Instr} {s : State} :
    mayTouch i s c.part ↔ ∃ x, i = c.load x := by
  cases c <;> cases i <;> simp [mayTouch, Counter.part, Counter.load]

theorem Counter.value_of_exec_load {c : Counter} {x : RegIdx} {s t : State} (h : exec (c.load x) s = .next t) :
    c.value t = s.reg x := by
  cases c <;> cases h <;> rfl

/-- Only the turn's own parts change when a turn is taken. -/
@[simp] theorem Counter.value_popTurn (c : Counter) (s : State) : c.value s.popTurn = c.value s := by
  cases c <;> rfl

/-- A step executes a counter's load, or takes from it one if it is a timer tick and nothing if it is not. -/
theorem step_counter (c : Counter) {s t : State} (h : step s = .next t) :
    (c.value t).toNat = (c.value s).toNat - [s.turn].count .timer ∨
      ∃ x, AboutToExecute s (c.load x) ∧ c.value t = s.reg x := by
  have kept (hturn : s.turn ≠ .timer) (hsame : c.part.same s.popTurn t) :
      (c.value t).toNat = (c.value s).toNat - [s.turn].count .timer := by
    rw [Counter.value_of_same hsame, Counter.value_popTurn, List.count_singleton, beq_eq_false_iff_ne.2 hturn]
    rfl
  obtain ⟨-, ⟨hturn, ⟨cause, n, rfl⟩ | ⟨i, hi, hexec, hframe⟩⟩ | ⟨hturn, rfl⟩ | ⟨hturn, rfl⟩ | ⟨hturn, rfl⟩⟩ :=
    step_cases h
  · exact .inl (kept (by simp [hturn]) (State.raise_unchanged _ _ _ _ (by cases c <;> simp [Counter.part])))
  · by_cases hload : ∃ x, i = c.load x
    · obtain ⟨x, rfl⟩ := hload
      exact .inr ⟨x, hi, Counter.value_of_exec_load (s := s.popTurn) hexec⟩
    · exact .inl (kept (by simp [hturn]) (hframe _ (hload ∘ Counter.mayTouch_part_iff.1)))
  · left
    rw [hturn]
    cases c <;> exact toNat_decay _
  · exact .inl (kept (by simp [hturn]) (State.sample_unchanged _ _ (by cases c <;> exact id)))
  · exact .inl (kept (by simp [hturn]) (State.setFrameOut_unchanged _ _ _ (by cases c <;> simp [Counter.part])))

/-- A step that does not load a counter does not increase it (R271). -/
theorem step_counter_le (c : Counter) {s t : State} (h : step s = .next t) :
    (c.value t).toNat ≤ (c.value s).toNat ∨ ∃ x, AboutToExecute s (c.load x) ∧ c.value t = s.reg x :=
  (step_counter c h).imp_left fun hticks => hticks.le.trans (Nat.sub_le _ _)

/-- Over a run without its load a counter falls by one for each tick, until it is 0. -/
theorem Run.counter_eq_sub_ticks (c : Counter) {s t : State} {agents : List Agent}
    (h : Run (fun u => ∀ x, ¬ AboutToExecute u (c.load x)) s agents t) :
    (c.value t).toNat = (c.value s).toNat - agents.count .timer := by
  induction h with
  | nil _ => rfl
  | @cons s u t agents hnoLoad hstep _ ih =>
    obtain hticks | ⟨x, hload, -⟩ := step_counter c hstep
    · rw [ih, hticks, Nat.sub_sub, ← List.count_append, List.singleton_append]
    · exact absurd hload (hnoLoad x)

/-- Settles O25: the law of the counters, for `DT` and for `ST`. -/
theorem timersFollowTheirLoadsAndTicks : Obligations.TimersFollowTheirLoadsAndTicks :=
  ⟨fun _ _ h => ⟨step_counter_le .delay h, step_counter_le .sound h⟩,
    fun _ _ _ h => Run.counter_eq_sub_ticks .delay h, fun _ _ _ h => Run.counter_eq_sub_ticks .sound h⟩

/-! ## The load (R260, R264) -/

theorem Inv.setMem {s : State} (h : Inv s) (hfault : s.fault = none) {m : Memory} (hm : m.wf = true) :
    Inv (s.setMem m) :=
  .of_fault_none hfault hm h.keys h.stack

/-- The record of a refused load is precise: it has the state's `pc` and no word (R203; log 13). -/
theorem Inv.setFault_load {s : State} (h : Inv s) (hexit : s.exit = false) {r : FaultRecord} (hcls : r.cls = .bounds)
    (hcause : r.cause = .load) (hpc : r.pc = s.pc) : Inv (s.setFault r) where
  mem := h.mem
  keys := h.keys
  stack := h.stack
  record := by simp [FaultRecordIsPrecise, hcls, hcause, hpc, FaultCause.cls]
  oneEnd := by simp [hexit]

/-- Settles O17: from the reset state (O15) memory is replaced by a canonical one, whether the image was written below
`MEM_SIZE` or refused; a refused load adds its record. -/
theorem bootEstablishesTheInvariant : Obligations.BootEstablishesTheInvariant := by
  intro image
  have withMem {m : Memory} (hm : m.wf = true) : Inv (State.reset.setMem m) :=
    theInvariantHoldsAtReset.setMem rfl hm
  obtain hfits | hlarge := le_or_gt (Config.loadBase + image.length) Params.memSize
  · rw [State.boot_fits hfits]
    exact withMem (Memory.wf_writeBytes (m := []) rfl image hfits)
  · rw [State.boot_refuses hlarge]
    exact (withMem (wf_refusedLoadMemory image)).setFault_load rfl rfl rfl rfl

/-- Settles O58: the refused load records its fault, and a machine with a fault is not live. -/
theorem bootRefusesAnImageTooLong : Obligations.BootRefusesAnImageTooLong := by
  intro image hlarge
  rw [State.boot_refuses hlarge]
  refine ⟨rfl, fun t hstep => ?_⟩
  obtain ⟨hfault, -⟩ := live_of_step hstep
  cases hfault

/-! ## The first instruction (R262) -/

/-- The timer, the sampler and the refresh write neither `pc` nor memory. -/
theorem step_pc_mem_of_not_cpu {s t : State} (h : step s = .next t) (hturn : s.turn ≠ .cpu) :
    t.pc = s.pc ∧ t.mem = s.mem := by
  obtain ⟨-, ⟨hcpu, -⟩ | ⟨-, rfl⟩ | ⟨-, rfl⟩ | ⟨-, rfl⟩⟩ := step_cases h
  · exact absurd hcpu hturn
  · exact ⟨rfl, rfl⟩
  · exact ⟨s.popTurn.sample_pc, s.popTurn.sample_mem⟩
  · exact ⟨rfl, rfl⟩

theorem Run.pc_mem_of_not_cpu {s t : State} {agents : List Agent} (h : Run (fun u => u.turn ≠ .cpu) s agents t) :
    t.pc = s.pc ∧ t.mem = s.mem := by
  refine h.preserves (Q := fun u => u.pc = s.pc ∧ u.mem = s.mem) (fun u v hturn ⟨hpc, hmem⟩ hstep => ?_) ⟨rfl, rfl⟩
  obtain ⟨hpc', hmem'⟩ := step_pc_mem_of_not_cpu hstep hturn
  exact ⟨hpc'.trans hpc, hmem'.trans hmem⟩

@[simp] theorem Machine.State.boot_pc (image : List Byte) : (State.boot image).pc = 0x200 := by
  unfold State.boot
  split <;> rfl

/-- After the load, a fetch at the reset `pc` answers the first two bytes of the image, high byte first (R44, R264). -/
theorem fetch?_boot {hi lo : Byte} {rest : List Byte} (hfits : Config.loadBase + (rest.length + 2) ≤ Params.memSize) :
    (State.boot (hi :: lo :: rest)).fetch? = some (hi ++ lo) := by
  obtain ⟨himage, -⟩ := bootLoadsFontAndImage (hi :: lo :: rest) hfits
  have hhi : (State.boot (hi :: lo :: rest)).mem.read 0x200 = hi := himage 0 (by simp)
  have hlo : (State.boot (hi :: lo :: rest)).mem.read (0x200 + 1) = lo := himage 1 (by simp)
  rw [fetch?_of_fits (a := 0x200) (by simp) (by decide), hhi, hlo]

/-- Settles O57: `pc` and memory are still those of the load when the `CPU` takes its first turn. -/
theorem theFirstInstructionIsTheImagesFirstWord : Obligations.TheFirstInstructionIsTheImagesFirstWord := by
  intro hi lo rest i schedule agents s hfits hdecode hrun hlive hturn
  obtain ⟨hpc, hmem⟩ := hrun.pc_mem_of_not_cpu
  have hfetch : s.fetch? = some (hi ++ lo) := by
    rw [← fetch?_boot hfits, State.fetch?, hpc, hmem]
    rfl
  have habout : AboutToExecute s i := ⟨hlive, hturn, _, hfetch, hdecode⟩
  exact ⟨hpc.trans (State.boot_pc _), habout, step_of_aboutToExecute habout⟩

/-! ## The encodings that the source shows (95_test_vectors.md E8) -/

/-- Settles O5: the byte pairs are the encodings of these instructions, which decode back (O1). -/
theorem theWordsOfTheSourceDecode : Obligations.TheWordsOfTheSourceDecode := by
  have back (i : Instr) : decodeBytes (encodeBytes i) = .ok (i, []) := by
    simpa using (decodingAnEncodedInstructionGivesItBack i []).2
  exact ⟨back (.ldVxKk 0 0x00), back (.ldFVx 0), back (.drw 0 0 1), back (.call 0x204), back (.ldVxKk 0 0x03), back .ret,
    back .cls⟩

end Sys2Proof
